-- ==== Sys2Proof/Word.lean ====
section
/-! DEFINITION. The word types of the machine (00_scope.md R5, R8; 10_state.md R24). -/

namespace Sys2Proof

/-- A register, a memory cell, an operand or an opcode: `XLEN = 8` bits, unsigned (R5, R8). -/
abbrev Byte := BitVec 8

/-- The program counter: 9 bits wide, so that 256 is seen as 256 and not as 0 (R24). -/
abbrev PcWord := BitVec 9

end Sys2Proof
end

