-- ==== Sys2Proof/Config.lean ====
section
/-! DEFINITION. What is fixed for a machine before reset and never changed by a rule (00_scope.md R5, 10_state.md R37):
the constants, and the form of an opcode map. The two parameters together, with the constraints on the map, are `Config` in
Decode.lean: the constraints speak of the formats of Syntax.lean. -/

namespace Sys2Proof

/-- `NREG = 8`: the number of indexed registers (R5). -/
abbrev numRegs : Nat := 8

/-- `MEM_SIZE = 256`: the number of memory bytes (R5). -/
abbrev memSize : Nat := 256

/-- `RESET_PC = 0`: the program counter after reset and the load address of the image (R5). -/
abbrev resetPc : PcWord := 0

/-- `SP_INDEX = 7`: the index of the register used as stack pointer (R5, R22). -/
abbrev spIndex : Fin numRegs := 7

/-- The parameter `OPC`: one opcode byte for each of the thirteen mnemonics (R5, R84). Its constraints are
`Opcodes.valid`, which `Config` requires (R85). -/
structure Opcodes where
  halt : Byte
  loadImmediate : Byte
  printReg : Byte
  compare : Byte
  add : Byte
  multiply : Byte
  jump : Byte
  jumpIfEqual : Byte
  jumpIfNotEqual : Byte
  push : Byte
  pop : Byte
  call : Byte
  ret : Byte
deriving DecidableEq, Repr

end Sys2Proof
end

