-- ==== Sys2Proof/Syntax.lean ====
section
/-! DEFINITION. The thirteen instructions (00_scope.md R2), their operands as whole bytes (30_encoding.md R83) and their
formats (R82). -/

namespace Sys2Proof

/-- One instruction, a row of the opcode table each, in the table's order. Operands are operand bytes, 0 to 255: an index
of 8 or more is a legal operand byte and raises InvalidRegister when the register is accessed (R23, R83). -/
inductive Instr where
  | halt
  | loadImmediate (r v : Byte)
  | printReg (r : Byte)
  | compare (a b : Byte)
  | add (a b : Byte)
  | multiply (a b : Byte)
  | jump (r : Byte)
  | jumpIfEqual (r : Byte)
  | jumpIfNotEqual (r : Byte)
  | push (r : Byte)
  | pop (r : Byte)
  | call (r : Byte)
  | ret
deriving DecidableEq, Repr

/-- The name of an instruction without its operands: what an opcode byte selects (R88). -/
inductive Mnemonic where
  | halt | loadImmediate | printReg | compare | add | multiply | jump | jumpIfEqual | jumpIfNotEqual
  | push | pop | call | ret
deriving DecidableEq, Repr

/-- The thirteen mnemonics in the table's order (R2). -/
def Mnemonic.all : List Mnemonic :=
  [.halt, .loadImmediate, .printReg, .compare, .add, .multiply, .jump, .jumpIfEqual, .jumpIfNotEqual,
    .push, .pop, .call, .ret]

/-- The mnemonic of an instruction. -/
def Instr.mnemonic : Instr → Mnemonic
  | .halt => .halt
  | .loadImmediate _ _ => .loadImmediate
  | .printReg _ => .printReg
  | .compare _ _ => .compare
  | .add _ _ => .add
  | .multiply _ _ => .multiply
  | .jump _ => .jump
  | .jumpIfEqual _ => .jumpIfEqual
  | .jumpIfNotEqual _ => .jumpIfNotEqual
  | .push _ => .push
  | .pop _ => .pop
  | .call _ => .call
  | .ret => .ret

/-- The operand bytes of an instruction, in memory order (R80, R82). -/
def Instr.operands : Instr → List Byte
  | .halt | .ret => []
  | .printReg r | .jump r | .jumpIfEqual r | .jumpIfNotEqual r | .push r | .pop r | .call r => [r]
  | .compare a b | .add a b | .multiply a b => [a, b]
  | .loadImmediate r v => [r, v]

/-- The four layouts of R82: no operand, a register, two registers, a register and an immediate. -/
inductive Format where
  | n | r | rr | ri
deriving DecidableEq, Repr

/-- The format of each mnemonic (R82). -/
def Mnemonic.format : Mnemonic → Format
  | .halt | .ret => .n
  | .printReg | .jump | .jumpIfEqual | .jumpIfNotEqual | .push | .pop | .call => .r
  | .compare | .add | .multiply => .rr
  | .loadImmediate => .ri

/-- The number of operand bytes of a format (R82). -/
def Format.operandCount : Format → Nat
  | .n => 0
  | .r => 1
  | .rr | .ri => 2

/-- The number of operand bytes of an instruction (R82). -/
def Mnemonic.operandCount (m : Mnemonic) : Nat := m.format.operandCount

/-- The sets-PC attribute: the instruction may assign the program counter (R81). It is a decode attribute only; whether
`pc` advances is decided per execution (R115, conflict C1). -/
def Mnemonic.setsPc : Mnemonic → Bool
  | .jump | .jumpIfEqual | .jumpIfNotEqual | .call | .ret => true
  | .halt | .loadImmediate | .printReg | .compare | .add | .multiply | .push | .pop => false

/-- The length of an instruction in bytes, `1 + count` (R87). -/
def Instr.length (i : Instr) : Nat := 1 + i.mnemonic.operandCount

end Sys2Proof
end

