-- ==== Sys2Proof/WellFormed.lean ====
section
/-! DEFINITION. Which instructions name only registers that exist (10_state.md R23, 30_encoding.md R83). An instruction that
is not well-formed in this sense still has an encoding and a meaning: its access raises InvalidRegister. -/

namespace Sys2Proof

/-- An operand byte names a register exactly when it is below 8 (R83). -/
def namesRegister (b : Byte) : Bool := b.toNat < numRegs

/-- The operand bytes that the instruction uses as register indices, in the order it tests them (60_exceptions.md R222).
The second operand of LOAD_IMMEDIATE is a value and is never tested. -/
def Instr.registerOperands : Instr → List Byte
  | .halt | .ret => []
  | .loadImmediate r _ => [r]
  | .printReg r | .jump r | .jumpIfEqual r | .jumpIfNotEqual r | .push r | .pop r | .call r => [r]
  | .compare a b | .add a b | .multiply a b => [a, b]

/-- Every register operand names a register. -/
def Instr.wellFormed (i : Instr) : Bool := i.registerOperands.all namesRegister

end Sys2Proof
end

