-- ==== Sys2Proof/Decode.lean ====
section
/-! DEFINITION. The opcode map and its constraints (30_encoding.md R84, R85), the decoder and the encoder (R80 to R88), the
default configuration (00_scope.md R5), and the assembler notation (R89, R90). -/

namespace Sys2Proof

/-- The operand count carried by an opcode byte: bits 7 to 6 (R81). -/
def opcodeCount (b : Byte) : Nat := (b.extractLsb' 6 2).toNat

/-- The sets-PC flag carried by an opcode byte: bit 4 (R81). -/
def opcodeSetsPc (b : Byte) : Bool := b.getLsbD 4

/-- The opcode byte of a mnemonic under an opcode map (R84). -/
def Opcodes.of (o : Opcodes) : Mnemonic → Byte
  | .halt => o.halt
  | .loadImmediate => o.loadImmediate
  | .printReg => o.printReg
  | .compare => o.compare
  | .add => o.add
  | .multiply => o.multiply
  | .jump => o.jump
  | .jumpIfEqual => o.jumpIfEqual
  | .jumpIfNotEqual => o.jumpIfNotEqual
  | .push => o.push
  | .pop => o.pop
  | .call => o.call
  | .ret => o.ret

/-- The constraints on an opcode map (R85): (a) the values are pairwise different; (b) bits 7 to 6 are the operand count;
(c) bit 4 is the sets-PC attribute. -/
def Opcodes.valid (o : Opcodes) : Bool :=
  decide (Mnemonic.all.Pairwise fun m n => o.of m ≠ o.of n)
    && Mnemonic.all.all fun m => opcodeCount (o.of m) == m.operandCount && opcodeSetsPc (o.of m) == m.setsPc

/-- The default opcode map: the LS-8 values of R84 (PRESUMED by the spec, decision D2, log entry 1). -/
def Opcodes.standard : Opcodes where
  halt := 0x01
  loadImmediate := 0x82
  printReg := 0x47
  compare := 0xA7
  add := 0xA0
  multiply := 0xA2
  jump := 0x54
  jumpIfEqual := 0x55
  jumpIfNotEqual := 0x56
  push := 0x45
  pop := 0x46
  call := 0x50
  ret := 0x11

/-- The two parameters of the machine (R5). `0 <= STACK_TOP <= 255` holds by the type. R85 is required of the map here, once:
a configuration carries the proof, so no operation of the machine can be given a map that breaks it. -/
structure Config where
  /-- `STACK_TOP`: the initial stack pointer and the upper bound of the stack region. -/
  stackTop : Byte
  /-- `OPC`: the opcode map. -/
  opc : Opcodes
  /-- The map meets the three constraints, and nothing more is required of it (R85). -/
  opcValid : opc.valid = true
deriving DecidableEq, Repr

/-- The default configuration: `STACK_TOP = 0xF4` (PRESUMED by the spec, decision D3, log entry 2) and the default map. -/
def Config.standard : Config where
  stackTop := 0xF4
  opc := Opcodes.standard
  opcValid := by decide

/-- The mnemonic that the whole opcode byte selects (R88); `none` for an illegal opcode (R86). -/
def Opcodes.lookup (o : Opcodes) (b : Byte) : Option Mnemonic :=
  Mnemonic.all.find? fun m => o.of m == b

/-- The decode result of R88: mnemonic, operand count and sets-PC flag, all functions of the opcode byte. -/
def Opcodes.decodeResult (o : Opcodes) (b : Byte) : Option (Mnemonic × Nat × Bool) :=
  (o.lookup b).map fun m => (m, m.operandCount, m.setsPc)

/-- The instruction of a mnemonic with its operand bytes `op1`, `op2` (R82); a format that has no such operand does not
look at it. -/
def Mnemonic.assemble : Mnemonic → Byte → Byte → Instr
  | .halt, _, _ => .halt
  | .loadImmediate, op1, op2 => .loadImmediate op1 op2
  | .printReg, op1, _ => .printReg op1
  | .compare, op1, op2 => .compare op1 op2
  | .add, op1, op2 => .add op1 op2
  | .multiply, op1, op2 => .multiply op1 op2
  | .jump, op1, _ => .jump op1
  | .jumpIfEqual, op1, _ => .jumpIfEqual op1
  | .jumpIfNotEqual, op1, _ => .jumpIfNotEqual op1
  | .push, op1, _ => .push op1
  | .pop, op1, _ => .pop op1
  | .call, op1, _ => .call op1
  | .ret, _, _ => .ret

/-- Why a sequence of bytes is not an instruction. -/
inductive DecodeError where
  /-- There is no byte at all. -/
  | noByte
  /-- The first byte is none of the thirteen opcodes (R86). -/
  | unsupportedOpcode (opcode : Byte)
  /-- The bytes end before the operands of this opcode do; in memory this is OutOfBounds(256) (R113). -/
  | missingOperand (opcode : Byte)
deriving DecidableEq, Repr

/-- Reads one instruction from the front of a sequence of bytes and answers it with the bytes that follow it (R80 to R88).
The opcode is matched before any operand is looked at (R112). -/
def decode (o : Opcodes) : List Byte → Except DecodeError (Instr × List Byte)
  | [] => .error .noByte
  | opcode :: rest =>
    match o.lookup opcode with
    | none => .error (.unsupportedOpcode opcode)
    | some m =>
      match m.operandCount, rest with
      | 0, rest => .ok (m.assemble 0 0, rest)
      | 1, op1 :: rest => .ok (m.assemble op1 0, rest)
      | 2, op1 :: op2 :: rest => .ok (m.assemble op1 op2, rest)
      | _, _ => .error (.missingOperand opcode)

/-- The bytes of an instruction in ascending addresses: the opcode, then its operands (R80, R82). -/
def encode (o : Opcodes) (i : Instr) : List Byte := o.of i.mnemonic :: i.operands

/-- The three bytes (the longest instruction, R80) that the bits of `w` below `nbits` make: the first byte is bits 7 to 0. -/
def tableBytes (nbits w : Nat) : List Byte :=
  let bits := w % 2 ^ nbits
  [BitVec.ofNat 8 bits, BitVec.ofNat 8 (bits / 256), BitVec.ofNat 8 (bits / 65536)]

/-- The instruction that the decoder reads from a word of the opcode table, numbered as the table numbers its bits. -/
def decodeTableWord (nbits w : Nat) : Option Instr :=
  match decode Opcodes.standard (tableBytes nbits w) with
  | .ok (i, _) => some i
  | .error _ => none

/-! ### Assembler notation (30_encoding.md R89, R90): the spec's own way to write instructions -/

/-- The mnemonic as the source writes it (R89). -/
def Mnemonic.longName : Mnemonic → String
  | .halt => "HALT"
  | .loadImmediate => "LOAD_IMMEDIATE"
  | .printReg => "PRINT_REG"
  | .compare => "COMPARE"
  | .add => "ADD"
  | .multiply => "MULTIPLY"
  | .jump => "JUMP"
  | .jumpIfEqual => "JUMP_IF_EQUAL"
  | .jumpIfNotEqual => "JUMP_IF_NOT_EQUAL"
  | .push => "PUSH"
  | .pop => "POP"
  | .call => "CALL"
  | .ret => "RETURN"

/-- The short name (R84, R90; general knowledge of the spec). -/
def Mnemonic.shortName : Mnemonic → String
  | .halt => "HLT"
  | .loadImmediate => "LDI"
  | .printReg => "PRN"
  | .compare => "CMP"
  | .add => "ADD"
  | .multiply => "MUL"
  | .jump => "JMP"
  | .jumpIfEqual => "JEQ"
  | .jumpIfNotEqual => "JNE"
  | .push => "PUSH"
  | .pop => "POP"
  | .call => "CALL"
  | .ret => "RET"

/-- A byte as its shortest decimal numeral. -/
def decimalText (b : Byte) : String := String.ofList (Nat.toDigits 10 b.toNat)

/-- A register operand; an index of 8 or more shows a faulting operand (R89). -/
def registerText (b : Byte) : String := "R" ++ decimalText b

/-- The operands in memory order (R89). -/
def Instr.operandTexts : Instr → List String
  | .halt | .ret => []
  | .printReg r | .jump r | .jumpIfEqual r | .jumpIfNotEqual r | .push r | .pop r | .call r => [registerText r]
  | .compare a b | .add a b | .multiply a b => [registerText a, registerText b]
  | .loadImmediate r v => [registerText r, decimalText v]

/-- The instruction as text: mnemonic, then operands separated by commas (R89). -/
def Instr.assembly (i : Instr) : String :=
  match i.operandTexts with
  | [] => i.mnemonic.longName
  | texts => i.mnemonic.longName ++ " " ++ ", ".intercalate texts

end Sys2Proof
end

