-- ==== Sys2Proof/Machine/State.lean ====
section
/-! DEFINITION. The complete state of the machine (10_state.md R37), the fault kinds and the state after reset (R34). -/

namespace Sys2Proof.Machine

/-- The six fault kinds (60_exceptions.md R220). Entering a fault is a NEXT state of this machine: the kind stands in the
fault record and the engine state is Faulted (R229). `Host.Outcome.fault` is raised by nothing (log entry 6; safe). -/
inductive Fault where
  /-- Raised by MemRead and MemWrite at address 256 or more, and by CALL's return-address test (R221). -/
  | outOfBounds
  /-- Raised by RegGet and RegSet at index 8 or more, in every instruction with a register operand (R222). -/
  | invalidRegister
  /-- Raised by decode of a byte outside the opcode map (R223). -/
  | unsupportedOpcode
  /-- Named by the source and raised by no rule (R224, 42_alu.md R151). -/
  | unsupportedOperation
  /-- Raised by PUSH and CALL when the new stack pointer would be below 0 (R225). -/
  | stackOverflow
  /-- Raised by PUSH, POP, CALL and RETURN when the new stack pointer would be above `STACK_TOP` (R226). -/
  | stackUnderflow
deriving DecidableEq, Repr

/-- Why an instruction would have no meaning. -/
inductive Refusal where
  /-- Raised by `exec` for an instruction without a meaning; no arm raises it, since all thirteen have one (safe). -/
  | notModelled (mnemonic : String)
deriving DecidableEq, Repr

/-- The flag register: the outcome of the most recent COMPARE (10_state.md R26). -/
inductive Flag where
  /-- `None`: no COMPARE has executed since reset. -/
  | unset
  /-- `E`: the equal flag is set. -/
  | equal
  /-- `L`: the less-than flag is set. -/
  | less
  /-- `G`: the greater-than flag is set. -/
  | greater
deriving DecidableEq, Repr

/-- The engine state (10_state.md R28). -/
inductive EngineState where
  | running | halted | faulted
deriving DecidableEq, Repr

/-- The fault record (10_state.md R29). `NoFault` is the absence of a record. -/
structure FaultRecord where
  kind : Fault
  /-- The value of `pc` at the start of the faulting cycle. -/
  pc : PcWord
  /-- The byte fetched at `pc`, absent for a fault of the opcode fetch. -/
  opcode : Option Byte
  /-- The offending number: address, index, opcode or candidate stack pointer. -/
  info : Int
deriving DecidableEq, Repr

/-- Memory as the list of its non-zero bytes in rising addresses; the canonical form is `Memory.wf` (log entry 12). -/
abbrev Memory := List Host.Cell

/-- The complete state of the machine (10_state.md R37). -/
structure State where
  /-- The indexed registers `x[0]` to `x[7]`; `x[7]` is the stack pointer (R20, R22). -/
  x : Vector Byte numRegs
  /-- The program counter (R24). -/
  pc : PcWord
  /-- The flag register (R26). -/
  fl : Flag
  /-- Memory (R31, 20_memory.md R50). -/
  mem : Memory
  /-- The engine state, `state` in the spec (R28). -/
  engine : EngineState
  /-- The fault record; `none` is kind NoFault (R29). -/
  fault : Option FaultRecord
  /-- The output channel, oldest byte first (R30). -/
  out : List Byte
deriving DecidableEq, Repr

/-- The state after reset under a configuration (10_state.md R34). -/
def State.resetIn (c : Config) : State where
  x := #v[0, 0, 0, 0, 0, 0, 0, c.stackTop]
  pc := resetPc
  fl := .unset
  mem := []
  engine := .running
  fault := none
  out := []

/-- The state after reset of the machine in its default configuration (R34, R5). -/
def State.reset : State := State.resetIn Config.standard

end Sys2Proof.Machine
end

