-- ==== Sys2Proof/Machine/Ops.lean ====
section
/-! DEFINITION. The named operations the instructions are written over: memory, the register array, the program counter, the
stack check, the output channel, and taking a fault. -/

namespace Sys2Proof.Machine

/-! ### Memory (20_memory.md) -/

/-- What an unlisted byte of memory reads as: memory is zero-initialised (R50, R34). -/
def Memory.unlisted : Byte := 0

/-- The byte at an address. -/
def Memory.peek : Memory → Nat → Byte
  | [], _ => Memory.unlisted
  | (b, v) :: rest, a => if b = a then v else Memory.peek rest a

/-- Puts a cell before the first cell with a higher address. -/
def Memory.insertCell (a : Nat) (v : Byte) : Memory → Memory
  | [] => [(a, v)]
  | (b, w) :: rest => if a < b then (a, v) :: (b, w) :: rest else (b, w) :: Memory.insertCell a v rest

/-- Memory with the byte at one address replaced; a byte equal to what an unlisted address reads as is not listed. -/
def Memory.poke (m : Memory) (a : Nat) (v : Byte) : Memory :=
  let rest := m.filter fun cell => cell.1 ≠ a
  if v = Memory.unlisted then rest else Memory.insertCell a v rest

/-- The canonical form from an address upwards: addresses rising and below 256, no listed byte equal to `unlisted`. -/
def Memory.wfFrom : Nat → Memory → Bool
  | _, [] => true
  | lo, (a, v) :: rest => decide (lo ≤ a) && decide (a < memSize) && decide (v ≠ Memory.unlisted) && Memory.wfFrom (a + 1) rest

/-- The canonical form of memory. -/
def Memory.wf (m : Memory) : Bool := Memory.wfFrom 0 m

/-! ### Raising (00_scope.md R10) -/

/-- What `raise <Kind>(info)` carries (R10, 60_exceptions.md R220). -/
structure Raise where
  kind : Fault
  info : Int
deriving DecidableEq, Repr

/-- Fault entry, the ONE operation by which a fault is taken (60_exceptions.md R229): nothing of the faulting cycle is
committed, the record is written with the `pc` at the start of the cycle and the opcode if it was fetched, and the engine
state becomes Faulted. There is no return from a fault (R230). -/
def takeFault (opcode : Option Byte) (e : Raise) (s : State) : State :=
  { s with engine := .faulted, fault := some ⟨e.kind, s.pc, opcode, e.info⟩ }

/-- The end of a cycle that began in `s`: its result if no test failed, fault entry from `s` if one did (R10, R229). -/
def settle (opcode : Option Byte) (s : State) : Except Raise State → State
  | .ok t => t
  | .error e => takeFault opcode e s

/-! ### Bounds-checked memory access (20_memory.md R51, R52) -/

/-- `MemRead(addr, 1)` (R51). -/
def memRead (s : State) (addr : Nat) : Except Raise Byte :=
  if addr < memSize then .ok (s.mem.peek addr) else .error ⟨.outOfBounds, addr⟩

/-- `MemWrite(addr, 1, v)` (R52). -/
def memWrite (s : State) (addr : Nat) (v : Byte) : Except Raise State :=
  if addr < memSize then .ok { s with mem := s.mem.poke addr v } else .error ⟨.outOfBounds, addr⟩

/-! ### Registers, program counter, output -/

/-- The value of `x[i]` (10_state.md R20). -/
def State.reg (s : State) (i : Fin numRegs) : Byte := s.x[i]

/-- `x[i] <- v` (R20). -/
def State.setReg (s : State) (i : Fin numRegs) (v : Byte) : State := { s with x := s.x.set i v }

/-- The stack pointer is register 7 (R22). -/
def State.sp (s : State) : Byte := s.reg spIndex

/-- Writes the stack pointer (R22). -/
def State.setSp (s : State) (v : Byte) : State := s.setReg spIndex v

/-- `pc <- pc + k`; the sum is not reduced modulo 256 (40_engine_cycle.md R115). -/
def State.advance (s : State) (k : Nat) : State := { s with pc := s.pc + BitVec.ofNat 9 k }

/-- `pc <- target`, a byte (43_jumps.md R173). -/
def State.goto (s : State) (target : Byte) : State := { s with pc := target.setWidth 9 }

/-- `Emit(v)`: appends to the output channel (10_state.md R30). -/
def State.emit (s : State) (v : Byte) : State := { s with out := s.out ++ [v] }

/-- The 2-bit code of the engine state; 3 never occurs (10_state.md R28). -/
def EngineState.code : EngineState → BitVec 2
  | .running => 0
  | .halted => 1
  | .faulted => 2

/-! ### The stack (10_state.md R32, R33) -/

/-- `StackCheck(n)` on the new stack-pointer value as an unbounded integer (R33). -/
def stackCheck (c : Config) (n : Int) : Except Raise Unit :=
  if n < 0 then .error ⟨.stackOverflow, n⟩
  else if n > c.stackTop.toNat then .error ⟨.stackUnderflow, n⟩
  else .ok ()

/-- The stack is empty when the stack pointer is `STACK_TOP` (R32). -/
def stackEmpty (c : Config) (s : State) : Bool := s.sp == c.stackTop

/-- The elements of the stack, top first: the bytes at `x[7]` up to `STACK_TOP - 1` (R32). -/
def stackElements (c : Config) (s : State) : List Byte :=
  (List.range (c.stackTop.toNat - s.sp.toNat)).map fun k => s.mem.peek (s.sp.toNat + k)

/-! ### The numeric codes of the fault record (60_exceptions.md R220) -/

/-- The code of a fault kind (R220). -/
def Fault.code : Fault → Nat
  | .outOfBounds => 1
  | .invalidRegister => 2
  | .unsupportedOpcode => 3
  | .unsupportedOperation => 4
  | .stackOverflow => 5
  | .stackUnderflow => 6

/-- The code of `fault.kind`: 0 is NoFault (R220). -/
def State.faultCode (s : State) : Nat := (s.fault.map fun r => r.kind.code).getD 0

end Sys2Proof.Machine
end

