-- ==== Sys2Proof/Machine/Flags.lean ====
section
/-! DEFINITION. The flag register: what COMPARE computes, the three conditions, the physical layout (10_state.md R26, R27). -/

namespace Sys2Proof.Machine

/-- The outcome of a COMPARE of two unsigned bytes (42_alu.md R153). -/
def compareFlag (a b : Byte) : Flag :=
  if a.toNat = b.toNat then .equal else if a.toNat < b.toNat then .less else .greater

/-- The equal flag is set iff `fl = E` (R26). -/
def Flag.isEqual (f : Flag) : Bool := f == .equal

/-- The less-than flag is set iff `fl = L` (R26). -/
def Flag.isLess (f : Flag) : Bool := f == .less

/-- The greater-than flag is set iff `fl = G` (R26). -/
def Flag.isGreater (f : Flag) : Bool := f == .greater

/-- The physical layout `00000LGE` (R27); no instruction can observe it. -/
def Flag.toByte : Flag → Byte
  | .unset => 0b00000000
  | .equal => 0b00000001
  | .greater => 0b00000010
  | .less => 0b00000100

end Sys2Proof.Machine
end

