-- ==== Sys2Proof/Machine/Operands.lean ====
section
/-! DEFINITION. The one operand form that reaches a register: an operand byte taken whole as an index (10_state.md R23,
30_encoding.md R83). The immediate of LOAD_IMMEDIATE is its byte as it stands; there is no other operand form. -/

namespace Sys2Proof.Machine

/-- The register an operand byte names, or InvalidRegister: no masking, no wrap (R23). -/
def regIndex (i : Byte) : Except Raise (Fin numRegs) :=
  if h : i.toNat < numRegs then .ok ⟨i.toNat, h⟩ else .error ⟨.invalidRegister, i.toNat⟩

/-- `RegGet(i)` (R23). -/
def regGet (s : State) (i : Byte) : Except Raise Byte := do
  let k ← regIndex i
  .ok (s.reg k)

/-- `RegSet(i, v)` (R23). -/
def regSet (s : State) (i : Byte) (v : Byte) : Except Raise State := do
  let k ← regIndex i
  .ok (s.setReg k v)

end Sys2Proof.Machine
end

