-- ==== Sys2Proof/Machine/Alu.lean ====
section
/-! DEFINITION. The ALU and COMPARE, ADD, MULTIPLY (42_alu.md). -/

namespace Sys2Proof.Machine

/-- The operation kinds of the ALU (R150). -/
inductive AluKind where
  | add | multiply | compare
deriving DecidableEq, Repr

/-- `(p + q) mod 256` (R152): the exact sum, narrowed. -/
def aluSum (p q : Byte) : Byte := BitVec.ofNat 8 (p.toNat + q.toNat)

/-- `(p * q) mod 256` (R152): the exact product, narrowed. -/
def aluProduct (p q : Byte) : Byte := BitVec.ofNat 8 (p.toNat * q.toNat)

/-- The ALU on two register indices (R150): it reads `x[a]`, then `x[b]`; ADD and MULTIPLY write `x[a]` and nothing else,
COMPARE writes `fl` and nothing else. Every kind is supported, so UnsupportedOperation has no place here (R151). -/
def alu (kind : AluKind) (a b : Byte) (s : State) : Except Raise State := do
  let p ← regGet s a
  let q ← regGet s b
  match kind with
  | .add => regSet s a (aluSum p q)
  | .multiply => regSet s a (aluProduct p q)
  | .compare => .ok { s with fl := compareFlag p q }

/-- An ALU instruction: the call of the ALU, then the Engine's auto-advance of 3 (R150). -/
def aluStepIn (c : Config) (m : Mnemonic) (kind : AluKind) (a b : Byte) (s : State) : State :=
  settle (some (c.opc.of m)) s do
    let t ← alu kind a b s
    .ok (t.advance 3)

/-- Exec_COMPARE (R153). -/
def compareIn (c : Config) (a b : Byte) (s : State) : State := aluStepIn c .compare .compare a b s

/-- COMPARE (R153). -/
def execCompare (a b : Byte) (s : State) : Host.Outcome State Fault Refusal := .next (compareIn Config.standard a b s)

/-- Exec_ADD (R154). -/
def addIn (c : Config) (a b : Byte) (s : State) : State := aluStepIn c .add .add a b s

/-- ADD (R154). -/
def execAdd (a b : Byte) (s : State) : Host.Outcome State Fault Refusal := .next (addIn Config.standard a b s)

/-- Exec_MULTIPLY (R155). -/
def multiplyIn (c : Config) (a b : Byte) (s : State) : State := aluStepIn c .multiply .multiply a b s

/-- MULTIPLY (R155). -/
def execMultiply (a b : Byte) (s : State) : Host.Outcome State Fault Refusal := .next (multiplyIn Config.standard a b s)

end Sys2Proof.Machine
end

