-- ==== Sys2Proof/Machine/Jump.lean ====
section
/-! DEFINITION. JUMP, JUMP_IF_EQUAL, JUMP_IF_NOT_EQUAL (43_jumps.md). -/

namespace Sys2Proof.Machine

/-- A transfer to the address held in a register (R173); the register is accessed only here (10_state.md R23). -/
def jumpToReg (r : Byte) (s : State) : Except Raise State := do
  let target ← regGet s r
  .ok (s.goto target)

/-- Exec_JUMP (R170). -/
def jumpIn (c : Config) (r : Byte) (s : State) : State := settle (some (c.opc.of .jump)) s (jumpToReg r s)

/-- JUMP (R170). -/
def execJump (r : Byte) (s : State) : Host.Outcome State Fault Refusal := .next (jumpIn Config.standard r s)

/-- A conditional jump: taken, or the auto-advance of 2 (R171, R172). -/
def jumpWhenIn (c : Config) (m : Mnemonic) (taken : Bool) (r : Byte) (s : State) : State :=
  settle (some (c.opc.of m)) s (if taken then jumpToReg r s else .ok (s.advance 2))

/-- Exec_JUMP_IF_EQUAL (R171). -/
def jumpIfEqualIn (c : Config) (r : Byte) (s : State) : State := jumpWhenIn c .jumpIfEqual s.fl.isEqual r s

/-- JUMP_IF_EQUAL (R171). -/
def execJumpIfEqual (r : Byte) (s : State) : Host.Outcome State Fault Refusal :=
  .next (jumpIfEqualIn Config.standard r s)

/-- Exec_JUMP_IF_NOT_EQUAL (R172). -/
def jumpIfNotEqualIn (c : Config) (r : Byte) (s : State) : State := jumpWhenIn c .jumpIfNotEqual (!s.fl.isEqual) r s

/-- JUMP_IF_NOT_EQUAL (R172). -/
def execJumpIfNotEqual (r : Byte) (s : State) : Host.Outcome State Fault Refusal :=
  .next (jumpIfNotEqualIn Config.standard r s)

end Sys2Proof.Machine
end

