-- ==== Sys2Proof/Machine/Stack.lean ====
section
/-! DEFINITION. PUSH, POP, CALL, RETURN (44_stack_and_subroutines.md). The new stack pointer `n` is an unbounded integer until
`stackCheck` has accepted it. -/

namespace Sys2Proof.Machine

/-- The new stack pointer of PUSH and CALL before its check: `x[7] - 1` (R190, R192). -/
def spDown (s : State) : Int := (s.sp.toNat : Int) - 1

/-- The register a stack instruction names, read after the stack pointer has become `n`: `n` itself when the register is the
stack pointer (R195). -/
def regAfterSp (s : State) (r : Byte) (n : Int) : Except Raise Byte := do
  let k ← regIndex r
  .ok (if k = spIndex then BitVec.ofInt 8 n else s.reg k)

/-- Stores a byte at the new stack pointer `n` and leaves the stack pointer there (R32). -/
def storeAtSp (s : State) (n : Int) (v : Byte) : Except Raise State := do
  let t ← memWrite s n.toNat v
  .ok (t.setSp (BitVec.ofInt 8 n))

/-- Exec_PUSH (R190). -/
def pushIn (c : Config) (r : Byte) (s : State) : State :=
  settle (some (c.opc.of .push)) s do
    let n := spDown s
    stackCheck c n
    let v ← regAfterSp s r n
    let t ← storeAtSp s n v
    .ok (t.advance 2)

/-- PUSH (R190). -/
def execPush (r : Byte) (s : State) : Host.Outcome State Fault Refusal := .next (pushIn Config.standard r s)

/-- Exec_POP (R191): the register is written first, then the incremented stack pointer, so a POP of the stack pointer ends
with `M[x[7]] + 1` (R195). -/
def popIn (c : Config) (r : Byte) (s : State) : State :=
  settle (some (c.opc.of .pop)) s do
    let v ← memRead s s.sp.toNat
    let k ← regIndex r
    let n : Int := (if k = spIndex then v.toNat else s.sp.toNat) + 1
    stackCheck c n
    .ok (((s.setReg k v).setSp (BitVec.ofInt 8 n)).advance 2)

/-- POP (R191). -/
def execPop (r : Byte) (s : State) : Host.Outcome State Fault Refusal := .next (popIn Config.standard r s)

/-- CALL's return address as a byte, or OutOfBounds when it is no byte (R192). -/
def returnAddress (s : State) : Except Raise Byte :=
  let ret := s.pc.toNat + 2
  if ret < memSize then .ok (BitVec.ofNat 8 ret) else .error ⟨.outOfBounds, ret⟩

/-- Exec_CALL (R192). -/
def callIn (c : Config) (r : Byte) (s : State) : State :=
  settle (some (c.opc.of .call)) s do
    let n := spDown s
    stackCheck c n
    let ret ← returnAddress s
    let target ← regAfterSp s r n
    let t ← storeAtSp s n ret
    .ok (t.goto target)

/-- CALL (R192). -/
def execCall (r : Byte) (s : State) : Host.Outcome State Fault Refusal := .next (callIn Config.standard r s)

/-- Exec_RETURN (R193). -/
def retIn (c : Config) (s : State) : State :=
  settle (some (c.opc.of .ret)) s do
    let v ← memRead s s.sp.toNat
    let n : Int := (s.sp.toNat : Int) + 1
    stackCheck c n
    .ok ((s.goto v).setSp (BitVec.ofInt 8 n))

/-- RETURN (R193). -/
def execReturn (s : State) : Host.Outcome State Fault Refusal := .next (retIn Config.standard s)

end Sys2Proof.Machine
end

