-- ==== Sys2Proof/Machine/System.lean ====
section
/-! DEFINITION. HALT, LOAD_IMMEDIATE, PRINT_REG (41_system_and_data.md). Each instruction has its effect under any
configuration (`…In`) and its meaning in the default one (`exec…`). -/

namespace Sys2Proof.Machine

/-- Exec_HALT (R130). -/
def haltIn (_c : Config) (s : State) : State := { s.advance 1 with engine := .halted }

/-- HALT (R130). -/
def execHalt (s : State) : Host.Outcome State Fault Refusal := .next (haltIn Config.standard s)

/-- Exec_LOAD_IMMEDIATE (R131). -/
def loadImmediateIn (c : Config) (r v : Byte) (s : State) : State :=
  settle (some (c.opc.of .loadImmediate)) s do
    let t ← regSet s r v
    .ok (t.advance 3)

/-- LOAD_IMMEDIATE (R131). -/
def execLoadImmediate (r v : Byte) (s : State) : Host.Outcome State Fault Refusal :=
  .next (loadImmediateIn Config.standard r v s)

/-- Exec_PRINT_REG (R132). -/
def printRegIn (c : Config) (r : Byte) (s : State) : State :=
  settle (some (c.opc.of .printReg)) s do
    let v ← regGet s r
    .ok ((s.emit v).advance 2)

/-- PRINT_REG (R132). -/
def execPrintReg (r : Byte) (s : State) : Host.Outcome State Fault Refusal :=
  .next (printRegIn Config.standard r s)

end Sys2Proof.Machine
end

