-- ==== Sys2Proof/Machine/Cycle.lean ====
section
/-! DEFINITION. The fetch-decode-execute cycle under any configuration (40_engine_cycle.md R110 to R117), and the storing of
an instruction where the next cycle fetches it. -/

namespace Sys2Proof.Machine

/-- The effect of an instruction under a configuration (R114). -/
def effectIn (c : Config) (i : Instr) (s : State) : State :=
  match i with
  | .halt => haltIn c s
  | .loadImmediate r v => loadImmediateIn c r v s
  | .printReg r => printRegIn c r s
  | .compare a b => compareIn c a b s
  | .add a b => addIn c a b s
  | .multiply a b => multiplyIn c a b s
  | .jump r => jumpIn c r s
  | .jumpIfEqual r => jumpIfEqualIn c r s
  | .jumpIfNotEqual r => jumpIfNotEqualIn c r s
  | .push r => pushIn c r s
  | .pop r => popIn c r s
  | .call r => callIn c r s
  | .ret => retIn c s

/-- A fault before the instruction executes: what was raised, and the opcode if it had been fetched (R111 to R113). -/
structure FetchFault where
  opcode : Option Byte
  cause : Raise
deriving DecidableEq, Repr

/-- Step 1: the opcode byte at `pc` (R111). -/
def fetchOpcode (s : State) : Except FetchFault Byte :=
  (memRead s s.pc.toNat).mapError fun e => ⟨none, e⟩

/-- Step 2: the mnemonic of the opcode, before any operand is read (R112). -/
def decodeOpcode (c : Config) (ir : Byte) : Except FetchFault Mnemonic :=
  match c.opc.lookup ir with
  | some m => .ok m
  | none => .error ⟨some ir, .unsupportedOpcode, ir.toNat⟩

/-- Step 3: the operand bytes at `pc + 1` and `pc + 2`, as many as the opcode has, in ascending order (R113); the other
operand of a shorter format is 0 and is not looked at. -/
def fetchOperands (s : State) (count : Nat) : Except Raise (Byte × Byte) := do
  let op1 ← if 1 ≤ count then memRead s (s.pc.toNat + 1) else .ok 0
  let op2 ← if count = 2 then memRead s (s.pc.toNat + 2) else .ok 0
  .ok (op1, op2)

/-- Steps 1 to 3: the instruction at `pc`, or the first fault (60_exceptions.md R228). -/
def fetchIn (c : Config) (s : State) : Except FetchFault Instr := do
  let ir ← fetchOpcode s
  let m ← decodeOpcode c ir
  let ops ← (fetchOperands s m.operandCount).mapError fun e => ⟨some ir, e⟩
  .ok (m.assemble ops.1 ops.2)

/-- Fault entry for a fault before execution (60_exceptions.md R229). -/
def takeFetchFault (f : FetchFault) (s : State) : State := takeFault f.opcode f.cause s

/-- One cycle under a configuration (R117). An engine that is not Running does nothing (R110). -/
def stepIn (c : Config) (s : State) : State :=
  match s.engine with
  | .running =>
    match fetchIn c s with
    | .ok i => effectIn c i s
    | .error f => takeFetchFault f s
  | .halted => s
  | .faulted => s

/-- Stores bytes at rising addresses; a byte past the end of memory is dropped. -/
def Memory.pokeBytes (m : Memory) (a : Nat) : List Byte → Memory
  | [] => m
  | b :: rest => Memory.pokeBytes (if a < memSize then m.poke a b else m) (a + 1) rest

/-- The bytes of memory from an address on, at most `n`, none past the end of memory. -/
def Memory.bytesFrom (m : Memory) (a n : Nat) : List Byte :=
  (List.range (min n (memSize - a))).map fun k => m.peek (a + k)

/-- The state with the bytes of a table word stored at `pc`. -/
def storeAtPc (s : State) (nbits w : Nat) : State :=
  { s with mem := s.mem.pokeBytes s.pc.toNat (tableBytes nbits w) }

end Sys2Proof.Machine
end

