-- ==== Sys2Proof/Machine/Dispatch.lean ====
section
/-! DEFINITION. One arm per instruction: the meaning of each in the default configuration (40_engine_cycle.md R114). -/

namespace Sys2Proof.Machine

def exec (i : Instr) (s : State) : Host.Outcome State Fault Refusal :=
  match i with
  | .halt => Sys2Proof.Machine.execHalt s
  | .loadImmediate r v => Sys2Proof.Machine.execLoadImmediate r v s
  | .printReg r => Sys2Proof.Machine.execPrintReg r s
  | .compare a b => Sys2Proof.Machine.execCompare a b s
  | .add a b => Sys2Proof.Machine.execAdd a b s
  | .multiply a b => Sys2Proof.Machine.execMultiply a b s
  | .jump r => Sys2Proof.Machine.execJump r s
  | .jumpIfEqual r => Sys2Proof.Machine.execJumpIfEqual r s
  | .jumpIfNotEqual r => Sys2Proof.Machine.execJumpIfNotEqual r s
  | .push r => Sys2Proof.Machine.execPush r s
  | .pop r => Sys2Proof.Machine.execPop r s
  | .call r => Sys2Proof.Machine.execCall r s
  | .ret => Sys2Proof.Machine.execReturn s

end Sys2Proof.Machine
end

