-- ==== Sys2Proof/Machine/Step.lean ====
section
/-! DEFINITION. One step of the machine in its default configuration: one cycle (40_engine_cycle.md R117). -/

namespace Sys2Proof.Machine

/-- One cycle. Every outcome is a next state: a Running, a Halted or a Faulted one (R117); an engine that is not Running
keeps its state (R110, log entry 7). -/
def step (s : State) : Host.Outcome State Fault Refusal :=
  match s.engine with
  | .running =>
    match fetchIn Config.standard s with
    | .ok i => exec i s
    | .error f => .next (takeFetchFault f s)
  | .halted => .next s
  | .faulted => .next s

/-- The state with an instruction stored at the program counter, where `step` fetches next. It stands for the loader, which
fills memory from outside before the run (70_reset_and_hazards.md R262, log entry 17). -/
def State.withFetchWord (s : State) (nbits w : Nat) : State := storeAtPc s nbits w

end Sys2Proof.Machine
end

