-- ==== Sys2Proof/Machine/HostPort.lean ====
section
/-! DEFINITION. What the host may do outside the run (70_reset_and_hazards.md R260 to R263, R267 to R270), and the text form of
the output (41_system_and_data.md R133). None of it is a step of the machine. -/

namespace Sys2Proof.Machine

/-- `Reset`, from any state: engine construction; nothing of the earlier state survives (R260). -/
def hostReset (c : Config) (_s : State) : State := State.resetIn c

/-- Writes the bytes of an image at `a`, `a + 1`, … by MemWrite (R262). -/
def loadFrom (s : State) (a : Nat) : List Byte → Except Raise State
  | [] => .ok s
  | b :: rest => do
    let t ← memWrite s a b
    loadFrom t (a + 1) rest

/-- The load: the image goes to memory from address 0 (R262). An image over 256 bytes is the loader's error and no state of
the engine (R263). -/
def loadImage (s : State) (image : List Byte) : Except Raise State := loadFrom s resetPc.toNat image

/-- The run: Step while Running (40_engine_cycle.md R118), within `fuel` cycles. `some t` is the end state of a run that ends
(R267); `none` is "no answer", never Halted or Faulted (R269). -/
def runIn (c : Config) : Nat → State → Option State
  | 0, s => if s.engine = .running then none else some s
  | fuel + 1, s => if s.engine = .running then runIn c fuel (stepIn c s) else some s

/-- The text line of one output byte: its shortest decimal numeral and a line feed (R133). -/
def outLine (v : Byte) : List Char := Nat.toDigits 10 v.toNat ++ ['\n']

/-- The text form of the output channel (R133). -/
def outText (out : List Byte) : List Char := out.flatMap outLine

end Sys2Proof.Machine
end

