-- ==== Sys2Proof/Safety.lean ====
section
/-! DEFINITION. The invariant of the machine, what a run is, and when a cycle is free of faults. -/

namespace Sys2Proof.Machine

/-- What a fault record says, kind by kind, of the machine it was written in (60_exceptions.md R220 to R226): the address of
an OutOfBounds is 256 (R221), an invalid index is a byte of 8 or more (R222), an unsupported opcode is no opcode of the map
(R223), UnsupportedOperation is never raised (R224), the bounds of the rejected stack pointer (R225, R226). The opcode is
absent exactly when the opcode fetch itself failed, at `pc = 256` (10_state.md R29). -/
def FaultRecord.sound (c : Config) (r : FaultRecord) : Prop :=
  (r.opcode = none ↔ r.pc.toNat = 256) ∧
  (r.opcode = none → r.kind = .outOfBounds) ∧
  match r.kind with
  | .outOfBounds => r.info = 256
  | .invalidRegister => 8 ≤ r.info ∧ r.info ≤ 255
  | .unsupportedOpcode => ∃ b, r.opcode = some b ∧ c.opc.lookup b = none ∧ r.info = b.toNat
  | .unsupportedOperation => False
  | .stackOverflow => r.info = -1
  | .stackUnderflow => c.stackTop.toNat < r.info ∧ r.info ≤ 256

/-- The invariant of every reachable state: `pc` is at most 256 (R24); memory is in its canonical form; the engine is Faulted
exactly when there is a fault record (R28, R29); the record is sound and its `pc` is the `pc` register (R229). -/
structure State.Inv (c : Config) (s : State) : Prop where
  pcInRange : s.pc.toNat ≤ 256
  memCanonical : s.mem.wf = true
  faultedIffRecord : s.engine = .faulted ↔ s.fault ≠ none
  recordSound : ∀ r, s.fault = some r → r.sound c ∧ r.pc = s.pc

/-- The conditions under which the last sentence of 60_exceptions.md R238 says a cycle never faults: the instruction's
operands name registers, `0 < x[7] <= STACK_TOP` at a PUSH or CALL, `x[7] < STACK_TOP` at a POP or RETURN, `R7` not the
operand of POP, and the return address of a CALL is a byte. -/
def State.mayRun (c : Config) (s : State) (i : Instr) : Prop :=
  i.wellFormed = true ∧
  match i with
  | .push _ => 0 < s.sp.toNat ∧ s.sp.toNat ≤ c.stackTop.toNat
  | .call _ => 0 < s.sp.toNat ∧ s.sp.toNat ≤ c.stackTop.toNat ∧ s.pc.toNat + 2 < 256
  | .pop r => r ≠ 7 ∧ s.sp.toNat < c.stackTop.toNat
  | .ret => s.sp.toNat < c.stackTop.toNat
  | _ => True

/-- Every register but those listed has the value it had. -/
def KeepsRegsExcept (js : List (Fin numRegs)) (s t : State) : Prop := ∀ j, j ∉ js → t.reg j = s.reg j

/-- Every byte of memory but the one at a listed address reads as it did. -/
def KeepsMemExcept (addrs : List Nat) (s t : State) : Prop := ∀ a, a ∉ addrs → t.mem.peek a = s.mem.peek a

/-- The status the host reads is as it was: engine state and fault record. -/
def KeepsStatus (s t : State) : Prop := t.engine = s.engine ∧ t.fault = s.fault

/-- The instruction takes a fault of this kind and this `info` from `s`: the record is written with the `pc` of `s` and the
instruction's opcode, the engine becomes Faulted, and everything else keeps its value (60_exceptions.md R229, the spec's
decision D8, log entry 5). -/
def FaultsWith (i : Instr) (s : State) (kind : Fault) (info : Int) : Prop :=
  exec i s = .next { s with
    engine := .faulted
    fault := some ⟨kind, s.pc, some (Opcodes.standard.of i.mnemonic), info⟩ }

end Sys2Proof.Machine
end

