-- ==== Sys2Proof/Certificates/Slice0/Obligations.lean ====
section
/-! DEFINITION. The statements for the provers. Each docstring names the rule of spec/ the statement comes from; where a clause
rests on a decision of the spec (92_eei_decisions.md) or of the model, the docstring says so and names the log entry. -/

open Sys2Proof Sys2Proof.Machine

/-! ### Encoding (30_encoding.md) -/

/-- One word of every row of the opcode table (R84), written out from the table, and the instruction it stands for. The
opcode values are the spec's default from general knowledge (decision D2, log entry 1). -/
def Obligations.TableWordsDecode : Prop :=
  decode Opcodes.standard [0b00000001] = .ok (.halt, []) ∧
  decode Opcodes.standard [0b10000010, 0x03, 0xC8] = .ok (.loadImmediate 3 200, []) ∧
  decode Opcodes.standard [0b01000111, 0x05] = .ok (.printReg 5, []) ∧
  decode Opcodes.standard [0b10100111, 0x01, 0x02] = .ok (.compare 1 2, []) ∧
  decode Opcodes.standard [0b10100000, 0x01, 0x02] = .ok (.add 1 2, []) ∧
  decode Opcodes.standard [0b10100010, 0x01, 0x02] = .ok (.multiply 1 2, []) ∧
  decode Opcodes.standard [0b01010100, 0x04] = .ok (.jump 4, []) ∧
  decode Opcodes.standard [0b01010101, 0x04] = .ok (.jumpIfEqual 4, []) ∧
  decode Opcodes.standard [0b01010110, 0x04] = .ok (.jumpIfNotEqual 4, []) ∧
  decode Opcodes.standard [0b01000101, 0x06] = .ok (.push 6, []) ∧
  decode Opcodes.standard [0b01000110, 0x06] = .ok (.pop 6, []) ∧
  decode Opcodes.standard [0b01010000, 0x06] = .ok (.call 6, []) ∧
  decode Opcodes.standard [0b00010001] = .ok (.ret, [])

/-- Decode and encode agree under every opcode map that meets R85: decoding the encoding of any instruction, with any bytes
behind it, gives the instruction back and leaves those bytes (R80, R82, R83, R88). -/
def Obligations.EncodeThenDecodeGivesTheInstruction : Prop :=
  ∀ (o : Opcodes), o.valid = true → ∀ (i : Instr) (rest : List Byte), decode o (encode o i ++ rest) = .ok (i, rest)

/-- Every decoded instruction has exactly one encoding: the bytes decoded are its encoding followed by what was left
(R82, R88). This direction needs no constraint on the map. -/
def Obligations.DecodedBytesAreTheEncoding : Prop :=
  ∀ (o : Opcodes) (bytes : List Byte) (i : Instr) (rest : List Byte),
    decode o bytes = .ok (i, rest) → bytes = encode o i ++ rest

/-- A first byte is refused by name exactly when it is none of the thirteen opcodes, whatever follows it (R86). That the
opcode is matched before its operands are looked at is the spec's decision D10. -/
def Obligations.OtherOpcodeBytesAreRefused : Prop :=
  ∀ (o : Opcodes) (b : Byte) (rest : List Byte),
    decode o (b :: rest) = .error (.unsupportedOpcode b) ↔ ∀ m : Mnemonic, o.of m ≠ b

/-! ### The cycle (40_engine_cycle.md) -/

/-- When the bytes at the program counter decode to an instruction, a step of a Running engine is that instruction's
`exec` and nothing else: the instruction itself writes `pc` (R114, R117). -/
def Obligations.StepRunsTheDecodedInstruction : Prop :=
  ∀ (s : State) (i : Instr) (rest : List Byte), s.engine = .running →
    decode Opcodes.standard (s.mem.bytesFrom s.pc.toNat 3) = .ok (i, rest) → step s = exec i s

/-- The opcode fetch reads the byte at `pc`; at `pc = 256` it raises OutOfBounds(256), with `pc = 256` and no opcode in the
record; with `pc <= 255` it cannot fault (R111). That `pc` may hold 256 is the spec's decision D5, the record's fields are
decision D9 (log entries 9, 21). -/
def Obligations.OpcodeFetchFaultsOnlyAt256 : Prop :=
  (∀ s : State, s.engine = .running → s.pc.toNat = 256 →
    ∃ t r, step s = .next t ∧ t.engine = .faulted ∧ t.fault = some r ∧ r.kind = .outOfBounds ∧ r.info = 256 ∧
      r.pc.toNat = 256 ∧ r.opcode = none) ∧
  (∀ s : State, s.pc.toNat ≤ 255 → fetchOpcode s = .ok (s.mem.peek s.pc.toNat))

/-- An opcode byte outside the map raises UnsupportedOpcode in the cycle that fetches it, at any `pc` up to 255, and
nothing else changes (R112). That no operand is fetched first is decision D10; that nothing else changes is decision D8;
the record's fields are decision D9 (log entries 5, 9, 14). -/
def Obligations.UndefinedOpcodeFaultsBeforeItsOperands : Prop :=
  ∀ s : State, s.engine = .running → s.pc.toNat ≤ 255 →
    (∀ m : Mnemonic, Opcodes.standard.of m ≠ s.mem.peek s.pc.toNat) →
    step s = .next { s with
      engine := .faulted
      fault := some ⟨.unsupportedOpcode, s.pc, some (s.mem.peek s.pc.toNat), (s.mem.peek s.pc.toNat).toNat⟩ }

/-- A defined opcode whose operands reach past address 255 raises OutOfBounds(256), whatever the flags and operands are: all
operand bytes are always fetched (R113, decision D22; nothing else changes: decision D8;
the record's fields: decision D9; log entries 5, 9, 15). -/
def Obligations.OperandFetchPast255Faults : Prop :=
  ∀ (s : State) (m : Mnemonic), s.engine = .running → s.pc.toNat ≤ 255 →
    s.mem.peek s.pc.toNat = Opcodes.standard.of m → 255 < s.pc.toNat + m.operandCount →
    step s = .next { s with
      engine := .faulted
      fault := some ⟨.outOfBounds, s.pc, some (Opcodes.standard.of m), 256⟩ }

/-- A Halted or Faulted engine does nothing, for any number of steps and under any configuration (R110, R230). That such a
step answers the same state, where 93_implementation_defined.md U30 says no step exists, is the model's reading (log entry
7). -/
def Obligations.StoppedEngineKeepsItsState : Prop :=
  ∀ s : State, s.engine ≠ .running → step s = .next s ∧ ∀ (c : Config) (k : Nat), (stepIn c)^[k] s = s

/-- R121: a cycle that does not fault and is not HALT leaves the engine Running, the fault record untouched, and `out`
untouched unless the instruction is PRINT_REG; only HALT stops the engine without a fault. -/
def Obligations.OnlyHaltStopsWithoutFault : Prop :=
  ∀ (s t : State) (i : Instr) (rest : List Byte), s.engine = .running →
    decode Opcodes.standard (s.mem.bytesFrom s.pc.toNat 3) = .ok (i, rest) →
    step s = .next t → t.engine ≠ .faulted →
    (i ≠ .halt → t.engine = .running ∧ t.fault = s.fault ∧ ((∀ r, i ≠ .printReg r) → t.out = s.out)) ∧
    (t.engine = .halted → i = .halt)

/-- A cycle of a Running engine without a fault record ends Halted exactly when the byte at `pc` is the HALT opcode, and
ends Faulted exactly when the new state holds a fault record (R28, R117, R267). The HALT opcode 0x01 is the default of
OPC, PRESUMED (decision D2, log entry 1). Which test failed is not said here. -/
def Obligations.EngineTransitions : Prop :=
  ∀ s : State, s.engine = .running → s.fault = none →
    ∃ t, step s = .next t ∧
      (t.engine = .halted ↔ s.pc.toNat ≤ 255 ∧ s.mem.peek s.pc.toNat = 0x01) ∧
      (t.engine = .faulted ↔ t.fault ≠ none)

/-- Faults are precise: a step that faults commits nothing, and its record holds the `pc` at the start of the cycle and the
fetched opcode, if one was fetched (R229; that the rest of the state is kept is the spec's decision D8, the record's fields
are decision D9; log entries 5, 9). -/
def Obligations.FaultsArePrecise : Prop :=
  ∀ s t : State, s.engine = .running → step s = .next t → t.engine = .faulted →
    ∃ r : FaultRecord, t = { s with engine := .faulted, fault := some r } ∧ r.pc = s.pc ∧
      r.opcode = if s.pc.toNat ≤ 255 then some (s.mem.peek s.pc.toNat) else none

/-- Which instruction's own tests can end in which fault, and on what (R222, R224 to R226, the list of R238): OutOfBounds
only CALL; InvalidRegister only an instruction with a register operand of 8 or more, reported as `info`; UnsupportedOpcode
and UnsupportedOperation none; StackOverflow only PUSH and CALL at stack pointer 0; StackUnderflow only the four stack
instructions. The `info` values are decision D9, the return address 256 of CALL decision D7, the stack bounds decision D12
(log entries 8, 9, 11). The bound 0xF5 of the underflow is STACK_TOP + 1 at the default STACK_TOP, PRESUMED (decision D3,
log entry 2). -/
def Obligations.WhichInstructionRaisesWhat : Prop :=
  ∀ (i : Instr) (s t : State), s.engine = .running → exec i s = .next t → t.engine = .faulted →
    ∃ f : FaultRecord, t.fault = some f ∧
      match f.kind with
      | .outOfBounds => (∃ r, i = .call r) ∧ 254 ≤ s.pc.toNat
      | .invalidRegister => ∃ b ∈ i.registerOperands, 8 ≤ b.toNat ∧ f.info = b.toNat
      | .unsupportedOpcode => False
      | .unsupportedOperation => False
      | .stackOverflow => (∃ r, i = .push r ∨ i = .call r) ∧ s.sp = 0 ∧ f.info = -1
      | .stackUnderflow => ((∃ r, i = .push r ∨ i = .call r ∨ i = .pop r) ∨ i = .ret) ∧ 0xF5 ≤ f.info ∧ f.info ≤ 256

/-- The program-counter update (R115) of every instruction that ends without a fault and whose bytes lie in memory: JUMP
and a taken conditional jump assign `pc` from the register, CALL from its register, RETURN from the top of the stack; a
conditional jump not taken and every other instruction, HALT among them, add their length; the sum is not reduced modulo
256 and is at most 256. The values assigned are those of the instructions' own rules (R170 to R172, R192, R193, R195): for
CALL R7 it is the decremented stack pointer, decision D13; a jump not taken advances with any operand byte, decision D11.
The value 256 is the spec's decision D5, the advance of HALT decision D6 (log entries 4, 10, 16, 21). -/
def Obligations.ProgramCounterUpdate : Prop :=
  ∀ (i : Instr) (s t : State), s.pc.toNat + i.length ≤ 256 → exec i s = .next t → t.engine ≠ .faulted →
    t.pc.toNat ≤ 256 ∧
    match i with
    | .jump r => ∃ h : r.toNat < 8, t.pc.toNat = (s.reg ⟨r.toNat, h⟩).toNat
    | .jumpIfEqual r =>
      if s.fl = .equal then ∃ h : r.toNat < 8, t.pc.toNat = (s.reg ⟨r.toNat, h⟩).toNat else t.pc.toNat = s.pc.toNat + 2
    | .jumpIfNotEqual r =>
      if s.fl = .equal then t.pc.toNat = s.pc.toNat + 2 else ∃ h : r.toNat < 8, t.pc.toNat = (s.reg ⟨r.toNat, h⟩).toNat
    | .call r => ∃ h : r.toNat < 8, t.pc.toNat = (t.reg ⟨r.toNat, h⟩).toNat
    | .ret => t.pc.toNat = (s.mem.peek s.sp.toNat).toNat
    | .halt => t.pc.toNat = s.pc.toNat + 1
    | .printReg _ | .push _ | .pop _ => t.pc.toNat = s.pc.toNat + 2
    | .loadImmediate _ _ | .compare _ _ | .add _ _ | .multiply _ _ => t.pc.toNat = s.pc.toNat + 3

/-! ### System and data (41_system_and_data.md) -/

/-- HALT runs in every state: the engine stops and everything but `pc` keeps its value (R130). That `pc` advances by 1 is
the spec's decision D6 (log entry 4). -/
def Obligations.HaltStopsTheEngine : Prop :=
  ∀ s : State, ∃ t, exec .halt s = .next t ∧ t.engine = .halted ∧ (s.pc.toNat ≤ 255 → t.pc.toNat = s.pc.toNat + 1) ∧
    KeepsRegsExcept [] s t ∧ KeepsMemExcept [] s t ∧ t.fl = s.fl ∧ t.out = s.out ∧ t.fault = s.fault

/-- LOAD_IMMEDIATE writes the immediate to the register, any of the eight, and advances `pc` by 3; nothing else changes;
an index of 8 or more raises InvalidRegister; at `pc = 254` or 255 the operand fetch faults first (R131).
The opcode byte is the default of OPC, PRESUMED
(decision D2, log entry 1); `info` is decision D9 (log entry 9). -/
def Obligations.LoadImmediateWritesTheRegister : Prop :=
  ∀ (r v : Byte) (s : State),
    encode Opcodes.standard (.loadImmediate r v) = [0x82, r, v] ∧
    (∀ h : r.toNat < 8, ∃ t, exec (.loadImmediate r v) s = .next t ∧ t.reg ⟨r.toNat, h⟩ = v ∧
      (s.pc.toNat ≤ 253 → t.pc.toNat = s.pc.toNat + 3) ∧
      KeepsRegsExcept [⟨r.toNat, h⟩] s t ∧ KeepsMemExcept [] s t ∧ t.fl = s.fl ∧ t.out = s.out ∧ KeepsStatus s t) ∧
    (8 ≤ r.toNat → ∃ t f, exec (.loadImmediate r v) s = .next t ∧ t.engine = .faulted ∧ t.fault = some f ∧
      f.kind = .invalidRegister ∧ f.info = r.toNat) ∧
    (s.engine = .running → s.pc.toNat = 254 ∨ s.pc.toNat = 255 → s.mem.peek s.pc.toNat = 0x82 →
      ∃ t f, step s = .next t ∧ t.engine = .faulted ∧ t.fault = some f ∧ f.kind = .outOfBounds)

/-- PRINT_REG appends the register's value to the output channel and advances `pc` by 2; no register, flag or memory byte
changes; an index of 8 or more raises InvalidRegister and nothing is emitted; after LOAD_IMMEDIATE of `v` it emits `v`
(R132). The opcode byte is the default of OPC, PRESUMED
(decision D2, log entry 1); `info` is decision D9 (log entry 9). -/
def Obligations.PrintRegEmitsTheRegister : Prop :=
  ∀ (r : Byte) (s : State),
    encode Opcodes.standard (.printReg r) = [0x47, r] ∧
    (∀ h : r.toNat < 8, ∃ t, exec (.printReg r) s = .next t ∧ t.out = s.out ++ [s.reg ⟨r.toNat, h⟩] ∧
      (s.pc.toNat ≤ 254 → t.pc.toNat = s.pc.toNat + 2) ∧
      KeepsRegsExcept [] s t ∧ KeepsMemExcept [] s t ∧ t.fl = s.fl ∧ KeepsStatus s t) ∧
    (8 ≤ r.toNat → ∃ t f, exec (.printReg r) s = .next t ∧ t.engine = .faulted ∧ t.fault = some f ∧
      f.kind = .invalidRegister ∧ f.info = r.toNat ∧ t.out = s.out) ∧
    (r.toNat < 8 → ∀ v : Byte, ∃ t u, exec (.loadImmediate r v) s = .next t ∧ exec (.printReg r) t = .next u ∧
      u.out = s.out ++ [v])

/-! ### The ALU (42_alu.md) -/

/-- R150: the ALU reads `x[a]`, then `x[b]`, each through the register check; ADD and MULTIPLY write `x[a]` and nothing
else, COMPARE writes `fl` and nothing else; the instructions ADD, MULTIPLY and COMPARE are these three calls with the
Engine's advance of 3 added. -/
def Obligations.AluWritesOnlyItsDestination : Prop :=
  ∀ (a b : Byte) (s : State),
    (8 ≤ a.toNat → ∀ kind, alu kind a b s = .error ⟨.invalidRegister, a.toNat⟩) ∧
    (a.toNat < 8 → 8 ≤ b.toNat → ∀ kind, alu kind a b s = .error ⟨.invalidRegister, b.toNat⟩) ∧
    (∀ (ha : a.toNat < 8) (_ : b.toNat < 8),
      (∃ u, alu .add a b s = .ok { s with x := u } ∧ KeepsRegsExcept [⟨a.toNat, ha⟩] s { s with x := u } ∧
        exec (.add a b) s = .next { s with x := u, pc := s.pc + 3 }) ∧
      (∃ u, alu .multiply a b s = .ok { s with x := u } ∧ KeepsRegsExcept [⟨a.toNat, ha⟩] s { s with x := u } ∧
        exec (.multiply a b) s = .next { s with x := u, pc := s.pc + 3 }) ∧
      (∃ f, alu .compare a b s = .ok { s with fl := f } ∧
        exec (.compare a b) s = .next { s with fl := f, pc := s.pc + 3 }))

/-- COMPARE sets exactly one outcome from the unsigned values, whatever the flags were, and changes nothing else but `pc`;
bad indices fault, the first operand first (R153). That less-than means A below B is the spec's decision D14, that a fault
changes nothing else decision D8, `info` decision D9 (log entries 5, 9, 13). -/
def Obligations.CompareSetsOneOutcome : Prop :=
  ∀ (a b : Byte) (s : State),
    (∀ (ha : a.toNat < 8) (hb : b.toNat < 8), ∃ t, exec (.compare a b) s = .next t ∧
      (t.fl = .equal ↔ (s.reg ⟨a.toNat, ha⟩).toNat = (s.reg ⟨b.toNat, hb⟩).toNat) ∧
      (t.fl = .less ↔ (s.reg ⟨a.toNat, ha⟩).toNat < (s.reg ⟨b.toNat, hb⟩).toNat) ∧
      (t.fl = .greater ↔ (s.reg ⟨b.toNat, hb⟩).toNat < (s.reg ⟨a.toNat, ha⟩).toNat) ∧
      (s.pc.toNat ≤ 253 → t.pc.toNat = s.pc.toNat + 3) ∧
      KeepsRegsExcept [] s t ∧ KeepsMemExcept [] s t ∧ t.out = s.out ∧ KeepsStatus s t) ∧
    (8 ≤ a.toNat → FaultsWith (.compare a b) s .invalidRegister a.toNat) ∧
    (a.toNat < 8 → 8 ≤ b.toNat → FaultsWith (.compare a b) s .invalidRegister b.toNat)

/-- ADD writes `(x[a] + x[b]) mod 256` to `x[a]`, also when both operands name one register, and advances `pc` by 3; no
flag, no other register and no memory byte changes; bad indices raise InvalidRegister, the first operand first, and change
no register (R154). The opcode byte is the default of OPC, PRESUMED (decision D2, log entry 1); `info` is decision D9 (log
entry 9). -/
def Obligations.AddWrapsModulo256 : Prop :=
  ∀ (a b : Byte) (s : State),
    encode Opcodes.standard (.add a b) = [0xA0, a, b] ∧
    (∀ (ha : a.toNat < 8) (hb : b.toNat < 8), ∃ t, exec (.add a b) s = .next t ∧
      (t.reg ⟨a.toNat, ha⟩).toNat = ((s.reg ⟨a.toNat, ha⟩).toNat + (s.reg ⟨b.toNat, hb⟩).toNat) % 256 ∧
      (s.pc.toNat ≤ 253 → t.pc.toNat = s.pc.toNat + 3) ∧
      KeepsRegsExcept [⟨a.toNat, ha⟩] s t ∧ KeepsMemExcept [] s t ∧ t.fl = s.fl ∧ t.out = s.out ∧ KeepsStatus s t) ∧
    (8 ≤ a.toNat → ∃ t f, exec (.add a b) s = .next t ∧ t.engine = .faulted ∧ t.fault = some f ∧
      f.kind = .invalidRegister ∧ f.info = a.toNat ∧ KeepsRegsExcept [] s t) ∧
    (a.toNat < 8 → 8 ≤ b.toNat → ∃ t f, exec (.add a b) s = .next t ∧ t.engine = .faulted ∧ t.fault = some f ∧
      f.kind = .invalidRegister ∧ f.info = b.toNat ∧ KeepsRegsExcept [] s t)

/-- MULTIPLY writes `(x[a] * x[b]) mod 256` to `x[a]`, also when both operands name one register, and advances `pc` by 3;
no flag, no other register and no memory byte changes; bad indices raise InvalidRegister, the first operand first, and
change no register (R155). The opcode byte is the default of OPC, PRESUMED (decision D2, log entry 1); `info` is decision
D9 (log entry 9). -/
def Obligations.MultiplyKeepsTheLowByte : Prop :=
  ∀ (a b : Byte) (s : State),
    encode Opcodes.standard (.multiply a b) = [0xA2, a, b] ∧
    (∀ (ha : a.toNat < 8) (hb : b.toNat < 8), ∃ t, exec (.multiply a b) s = .next t ∧
      (t.reg ⟨a.toNat, ha⟩).toNat = ((s.reg ⟨a.toNat, ha⟩).toNat * (s.reg ⟨b.toNat, hb⟩).toNat) % 256 ∧
      (s.pc.toNat ≤ 253 → t.pc.toNat = s.pc.toNat + 3) ∧
      KeepsRegsExcept [⟨a.toNat, ha⟩] s t ∧ KeepsMemExcept [] s t ∧ t.fl = s.fl ∧ t.out = s.out ∧ KeepsStatus s t) ∧
    (8 ≤ a.toNat → ∃ t f, exec (.multiply a b) s = .next t ∧ t.engine = .faulted ∧ t.fault = some f ∧
      f.kind = .invalidRegister ∧ f.info = a.toNat ∧ KeepsRegsExcept [] s t) ∧
    (a.toNat < 8 → 8 ≤ b.toNat → ∃ t f, exec (.multiply a b) s = .next t ∧ t.engine = .faulted ∧ t.fault = some f ∧
      f.kind = .invalidRegister ∧ f.info = b.toNat ∧ KeepsRegsExcept [] s t)

/-! ### Jumps (43_jumps.md) -/

/-- JUMP assigns `pc` the register's value, whatever it is, and changes nothing else; a bad index raises InvalidRegister and
leaves `pc` (R170). The opcode byte is the default of OPC, PRESUMED
(decision D2, log entry 1); `info` is decision D9 (log entry 9). -/
def Obligations.JumpGoesToTheRegister : Prop :=
  ∀ (r : Byte) (s : State),
    encode Opcodes.standard (.jump r) = [0x54, r] ∧
    (∀ h : r.toNat < 8, ∃ t, exec (.jump r) s = .next t ∧ t.pc.toNat = (s.reg ⟨r.toNat, h⟩).toNat ∧
      KeepsRegsExcept [] s t ∧ KeepsMemExcept [] s t ∧ t.fl = s.fl ∧ t.out = s.out ∧ KeepsStatus s t) ∧
    (8 ≤ r.toNat → ∃ t f, exec (.jump r) s = .next t ∧ t.engine = .faulted ∧ t.fault = some f ∧
      f.kind = .invalidRegister ∧ f.info = r.toNat ∧ t.pc = s.pc)

/-- JUMP_IF_EQUAL: taken exactly when `fl = E` (R171). Not taken it advances by 2 with any operand byte, because it
accesses no register (the spec's decision D11); taken with a bad index it faults and changes nothing else (decision D8,
`info` decision D9; log entries 5, 9, 10). -/
def Obligations.JumpIfEqualIsTakenOnEqual : Prop :=
  ∀ (r : Byte) (s : State),
    (s.fl = .equal → ∀ h : r.toNat < 8, ∃ t, exec (.jumpIfEqual r) s = .next t ∧
      t.pc.toNat = (s.reg ⟨r.toNat, h⟩).toNat ∧
      KeepsRegsExcept [] s t ∧ KeepsMemExcept [] s t ∧ t.fl = s.fl ∧ t.out = s.out ∧ KeepsStatus s t) ∧
    (s.fl ≠ .equal → ∃ t, exec (.jumpIfEqual r) s = .next t ∧ (s.pc.toNat ≤ 254 → t.pc.toNat = s.pc.toNat + 2) ∧
      KeepsRegsExcept [] s t ∧ KeepsMemExcept [] s t ∧ t.fl = s.fl ∧ t.out = s.out ∧ KeepsStatus s t) ∧
    (s.fl = .equal → 8 ≤ r.toNat → FaultsWith (.jumpIfEqual r) s .invalidRegister r.toNat)

/-- JUMP_IF_NOT_EQUAL: taken exactly when `fl` is not `E`, before any COMPARE too (R172; the reset value of `fl` is
decision D4, log entry 3). Not taken it advances by 2 with any operand byte (decision D11); taken with a bad index it
faults and changes nothing else (decision D8, `info` decision D9; log entries 5, 9, 10). -/
def Obligations.JumpIfNotEqualIsTakenOnNotEqual : Prop :=
  ∀ (r : Byte) (s : State),
    (s.fl ≠ .equal → ∀ h : r.toNat < 8, ∃ t, exec (.jumpIfNotEqual r) s = .next t ∧
      t.pc.toNat = (s.reg ⟨r.toNat, h⟩).toNat ∧
      KeepsRegsExcept [] s t ∧ KeepsMemExcept [] s t ∧ t.fl = s.fl ∧ t.out = s.out ∧ KeepsStatus s t) ∧
    (s.fl = .equal → ∃ t, exec (.jumpIfNotEqual r) s = .next t ∧ (s.pc.toNat ≤ 254 → t.pc.toNat = s.pc.toNat + 2) ∧
      KeepsRegsExcept [] s t ∧ KeepsMemExcept [] s t ∧ t.fl = s.fl ∧ t.out = s.out ∧ KeepsStatus s t) ∧
    (s.fl ≠ .equal → 8 ≤ r.toNat → FaultsWith (.jumpIfNotEqual r) s .invalidRegister r.toNat)

/-! ### The stack (44_stack_and_subroutines.md) -/

/-- PUSH, with every test in its order. It stores at `spDown s = x[7] - 1`, the address its meaning computes, and leaves
`x[7]` there (R190). The bounds are decision D12, the value stored by PUSH R7 is decision D13, that a fault changes
nothing is decision D8, `info` is decision D9, the order of the tests decision D11 (log entries 5, 9, 10, 11, 16). The
bound 0xF4 is the default STACK_TOP, PRESUMED (decision D3, log entry 2). -/
def Obligations.PushStoresBelowTheStackPointer : Prop :=
  ∀ (r : Byte) (s : State),
    (s.sp.toNat = 0 → FaultsWith (.push r) s .stackOverflow (-1)) ∧
    (0xF4 + 1 < s.sp.toNat → FaultsWith (.push r) s .stackUnderflow (s.sp.toNat - 1)) ∧
    (0 < s.sp.toNat → s.sp.toNat ≤ 0xF4 + 1 → 8 ≤ r.toNat → FaultsWith (.push r) s .invalidRegister r.toNat) ∧
    (0 < s.sp.toNat → s.sp.toNat ≤ 0xF4 + 1 → ∀ h : r.toNat < 8, ∃ t, exec (.push r) s = .next t ∧
      (t.sp.toNat : Int) = spDown s ∧
      t.mem.peek (spDown s).toNat = (if r = 7 then t.sp else s.reg ⟨r.toNat, h⟩) ∧
      (s.pc.toNat ≤ 254 → t.pc.toNat = s.pc.toNat + 2) ∧
      KeepsRegsExcept [spIndex] s t ∧ KeepsMemExcept [(spDown s).toNat] s t ∧ t.fl = s.fl ∧ t.out = s.out ∧
      KeepsStatus s t)

/-- POP, with every test in its order: the register test first, then the stack test on the incremented stack pointer,
which for POP R7 is one more than the byte loaded (R191; bounds decision D12, POP R7 decision D13, order decision D11,
fault state decision D8, `info` decision D9; log entries 5, 9, 10, 11, 16). Memory keeps every byte. The bound 0xF4 is the
default STACK_TOP, PRESUMED (decision D3, log entry 2). -/
def Obligations.PopLoadsTheTopOfStack : Prop :=
  ∀ (r : Byte) (s : State),
    (8 ≤ r.toNat → FaultsWith (.pop r) s .invalidRegister r.toNat) ∧
    (r.toNat < 8 → r ≠ 7 → 0xF4 ≤ s.sp.toNat → FaultsWith (.pop r) s .stackUnderflow (s.sp.toNat + 1)) ∧
    (∀ h : r.toNat < 8, r ≠ 7 → s.sp.toNat < 0xF4 → ∃ t, exec (.pop r) s = .next t ∧
      t.reg ⟨r.toNat, h⟩ = s.mem.peek s.sp.toNat ∧ t.sp.toNat = s.sp.toNat + 1 ∧
      (s.pc.toNat ≤ 254 → t.pc.toNat = s.pc.toNat + 2) ∧
      KeepsRegsExcept [⟨r.toNat, h⟩, spIndex] s t ∧ KeepsMemExcept [] s t ∧ t.fl = s.fl ∧ t.out = s.out ∧
      KeepsStatus s t) ∧
    (0xF4 ≤ (s.mem.peek s.sp.toNat).toNat →
      FaultsWith (.pop 7) s .stackUnderflow ((s.mem.peek s.sp.toNat).toNat + 1)) ∧
    ((s.mem.peek s.sp.toNat).toNat < 0xF4 → ∃ t, exec (.pop 7) s = .next t ∧
      t.sp.toNat = (s.mem.peek s.sp.toNat).toNat + 1 ∧ (s.pc.toNat ≤ 254 → t.pc.toNat = s.pc.toNat + 2) ∧
      KeepsRegsExcept [spIndex] s t ∧ KeepsMemExcept [] s t ∧ t.fl = s.fl ∧ t.out = s.out ∧ KeepsStatus s t)

/-- CALL, with every test in its order. It stores the return address `pc + 2` at `spDown s` and goes to the register's
value, for CALL R7 the decremented stack pointer (R192; the return address 256 is decision D7, R7 decision D13, bounds
decision D12, order decision D11, fault state decision D8, `info` decision D9; log entries 5, 8, 9, 10, 11, 16). The bound
0xF4 is the default STACK_TOP, PRESUMED (decision D3, log entry 2). -/
def Obligations.CallPushesTheReturnAddress : Prop :=
  ∀ (r : Byte) (s : State),
    (s.sp.toNat = 0 → FaultsWith (.call r) s .stackOverflow (-1)) ∧
    (0xF4 + 1 < s.sp.toNat → FaultsWith (.call r) s .stackUnderflow (s.sp.toNat - 1)) ∧
    (0 < s.sp.toNat → s.sp.toNat ≤ 0xF4 + 1 → 254 ≤ s.pc.toNat →
      FaultsWith (.call r) s .outOfBounds (s.pc.toNat + 2)) ∧
    (0 < s.sp.toNat → s.sp.toNat ≤ 0xF4 + 1 → s.pc.toNat < 254 → 8 ≤ r.toNat →
      FaultsWith (.call r) s .invalidRegister r.toNat) ∧
    (0 < s.sp.toNat → s.sp.toNat ≤ 0xF4 + 1 → s.pc.toNat < 254 → ∀ h : r.toNat < 8, ∃ t, exec (.call r) s = .next t ∧
      (t.sp.toNat : Int) = spDown s ∧
      (t.mem.peek (spDown s).toNat).toNat = s.pc.toNat + 2 ∧
      t.pc.toNat = (if r = 7 then t.sp else s.reg ⟨r.toNat, h⟩).toNat ∧
      KeepsRegsExcept [spIndex] s t ∧ KeepsMemExcept [(spDown s).toNat] s t ∧ t.fl = s.fl ∧ t.out = s.out ∧
      KeepsStatus s t)

/-- RETURN takes the byte at the top of the stack as `pc` and increments the stack pointer; an empty stack underflows (R193;
bounds decision D12, fault state decision D8, `info` decision D9; log entries 5, 9, 11). Memory keeps every byte. The bound
0xF4 is the default STACK_TOP, PRESUMED (decision D3, log entry 2). -/
def Obligations.ReturnPopsTheProgramCounter : Prop :=
  ∀ s : State,
    (0xF4 ≤ s.sp.toNat → FaultsWith .ret s .stackUnderflow (s.sp.toNat + 1)) ∧
    (s.sp.toNat < 0xF4 → ∃ t, exec .ret s = .next t ∧ t.pc.toNat = (s.mem.peek s.sp.toNat).toNat ∧
      t.sp.toNat = s.sp.toNat + 1 ∧
      KeepsRegsExcept [spIndex] s t ∧ KeepsMemExcept [] s t ∧ t.fl = s.fl ∧ t.out = s.out ∧ KeepsStatus s t)

/-- PUSH then POP of one register gives the register and the stack pointer their values back, for every register, `R7` too
(R191; for `R7` R195, decision D13, log entry 16). The stack pointer starts in its valid range, above 0 (R32); the bound
0xF4 is the default STACK_TOP, PRESUMED (decision D3, log entry 2). -/
def Obligations.PushThenPopRestores : Prop :=
  ∀ (r : Byte) (s : State), r.toNat < 8 → 0 < s.sp.toNat → s.sp.toNat ≤ 0xF4 →
    ∃ t u, exec (.push r) s = .next t ∧ exec (.pop r) t = .next u ∧ (∀ j, u.reg j = s.reg j) ∧ KeepsStatus s u

/-- CALL then RETURN resumes after the CALL's operand byte with the stack pointer restored (R192, R194), for every
register that holds the target, `R7` too (decision D13); the bounds are decisions D7 and D12 (log entries 8, 11, 16). The
bound 0xF4 is the default STACK_TOP, PRESUMED (decision D3, log entry 2). -/
def Obligations.CallThenReturnResumes : Prop :=
  ∀ (r : Byte) (s : State), r.toNat < 8 → 0 < s.sp.toNat → s.sp.toNat ≤ 0xF4 → s.pc.toNat < 254 →
    ∃ t u, exec (.call r) s = .next t ∧ exec .ret t = .next u ∧ u.pc.toNat = s.pc.toNat + 2 ∧
      (∀ j, u.reg j = s.reg j) ∧ KeepsStatus s u

/-- A byte stored by PUSH is what the next fetch of its address reads, with nothing in between (R61, derived there from
R50 and R59; the byte PUSH R7 stores is decision D13, the bounds decision D12; log entries 11, 16). The bound 0xF4 is the
default STACK_TOP, PRESUMED (decision D3, log entry 2). -/
def Obligations.PushedByteIsFetched : Prop :=
  ∀ (r : Byte) (s : State) (h : r.toNat < 8) (p : PcWord), 0 < s.sp.toNat → s.sp.toNat ≤ 0xF4 + 1 →
    (p.toNat : Int) = spDown s →
    ∃ t, exec (.push r) s = .next t ∧
      fetchOpcode { t with pc := p } = .ok (if r = 7 then t.sp else s.reg ⟨r.toNat, h⟩)

/-- The two conditional jumps are complements: in one flag state exactly one of them is taken (R172). -/
def Obligations.ConditionalJumpsAreComplements : Prop :=
  ∀ (r : Byte) (s : State) (h : r.toNat < 8), ∃ t u,
    exec (.jumpIfEqual r) s = .next t ∧ exec (.jumpIfNotEqual r) s = .next u ∧
    ((t.pc = (s.reg ⟨r.toNat, h⟩).setWidth 9 ∧ u.pc = s.pc + 2) ∨ (t.pc = s.pc + 2 ∧ u.pc = (s.reg ⟨r.toNat, h⟩).setWidth 9))

/-! ### Memory and registers (20_memory.md, 10_state.md) -/

/-- R51 and R52: a read inside memory returns the byte and changes nothing, outside it raises OutOfBounds of that address;
a write inside memory sets that byte and no other byte and no other state, outside it raises OutOfBounds of that
address. -/
def Obligations.MemoryAccessContract : Prop :=
  ∀ (s : State) (addr : Nat) (v : Byte),
    (addr ≤ 255 → memRead s addr = .ok (s.mem.peek addr)) ∧
    (256 ≤ addr → memRead s addr = .error ⟨.outOfBounds, addr⟩) ∧
    (addr ≤ 255 → ∃ m, memWrite s addr v = .ok { s with mem := m } ∧ m.peek addr = v ∧
      ∀ b, b ≠ addr → m.peek b = s.mem.peek b) ∧
    (256 ≤ addr → memWrite s addr v = .error ⟨.outOfBounds, addr⟩)

/-- The Register File contract: an operand byte below 8 reaches its register, any other raises InvalidRegister of that
byte, with no masking and no wrap; a write of one register changes no other (R20, R23; that the check is made at the
access is decision D11, log entry 10). -/
def Obligations.RegisterFileContract : Prop :=
  ∀ (s : State) (i v : Byte),
    (∀ h : i.toNat < 8, regGet s i = .ok (s.reg ⟨i.toNat, h⟩)) ∧
    (8 ≤ i.toNat → regGet s i = .error ⟨.invalidRegister, i.toNat⟩) ∧
    (∀ h : i.toNat < 8, ∃ u, regSet s i v = .ok { s with x := u } ∧ ({ s with x := u } : State).reg ⟨i.toNat, h⟩ = v ∧
      KeepsRegsExcept [⟨i.toNat, h⟩] s { s with x := u }) ∧
    (8 ≤ i.toNat → regSet s i v = .error ⟨.invalidRegister, i.toNat⟩)

/-- Only COMPARE writes `fl`, and only the two conditional jumps depend on it: any other instruction gives the same result
from two states that differ in `fl`, but for `fl` itself (R26; the value `None` is decision D4, log entry 3). -/
def Obligations.FlagsAreWrittenByCompareAndReadByJumps : Prop :=
  (∀ (i : Instr) (s t : State), (∀ a b, i ≠ .compare a b) → exec i s = .next t → t.fl = s.fl) ∧
  (∀ (i : Instr) (s t : State) (f : Flag), (∀ r, i ≠ .jumpIfEqual r) → (∀ r, i ≠ .jumpIfNotEqual r) →
    exec i s = .next t → ∃ u, exec i { s with fl := f } = .next u ∧ { u with fl := t.fl } = t)

/-- R30: `out` is empty at reset and only grows at its end; only PRINT_REG emits, and what it emits is its register; what
`out` already holds has no influence on any instruction. -/
def Obligations.OutputGrowsOnlyByPrintReg : Prop :=
  State.reset.out = [] ∧
  ∀ (i : Instr) (s : State), ∃ (t : State) (emitted : List Byte),
    (∀ o : List Byte, exec i { s with out := o } = .next { t with out := o ++ emitted }) ∧
    ((∀ r, i ≠ .printReg r) → emitted = []) ∧
    (∀ (r : Byte) (h : r.toNat < 8), i = .printReg r → emitted = [s.reg ⟨r.toNat, h⟩]) ∧
    (∀ r : Byte, 8 ≤ r.toNat → i = .printReg r → emitted = [])

/-- Which instructions reach memory as data: only PUSH and CALL write a byte, the one at `spDown s`; only POP and RETURN
depend on memory, and only on the byte at `x[7]` (20_memory.md section 4). -/
def Obligations.OnlyStackInstructionsReachMemory : Prop :=
  (∀ (i : Instr) (s t : State), exec i s = .next t →
    (∀ r, i ≠ .push r) → (∀ r, i ≠ .call r) → KeepsMemExcept [] s t) ∧
  (∀ (i : Instr) (s t : State), exec i s = .next t → KeepsMemExcept [(spDown s).toNat] s t) ∧
  (∀ (i : Instr) (s : State) (m : Memory),
    m.peek s.sp.toNat = s.mem.peek s.sp.toNat ∨ ((∀ r, i ≠ .pop r) ∧ i ≠ .ret) →
    ∃ t u, exec i s = .next t ∧ exec i { s with mem := m } = .next u ∧ { u with mem := t.mem } = t)

/-- Which instruction writes which register: a register that changed is the destination operand of LOAD_IMMEDIATE, ADD,
MULTIPLY or POP, or it is `x[7]` after PUSH, POP, CALL or RETURN (10_state.md section 1). -/
def Obligations.RegisterWrites : Prop :=
  ∀ (i : Instr) (s t : State) (j : Fin numRegs), exec i s = .next t → t.reg j ≠ s.reg j →
    match i with
    | .loadImmediate r _ | .add r _ | .multiply r _ => r.toNat = j.val
    | .pop r => r.toNat = j.val ∨ j = spIndex
    | .push _ | .call _ | .ret => j = spIndex
    | .halt | .printReg _ | .compare _ _ | .jump _ | .jumpIfEqual _ | .jumpIfNotEqual _ => False

/-! ### Reset, load, run (70_reset_and_hazards.md, 10_state.md R34) -/

/-- Reset, from any state and under any configuration: every piece of state has its reset value (R34, R260). `x[7] =
STACK_TOP` is decision D3, `fl = None` decision D4, one Reset operation decision D24 (log entries 2, 3, 19). -/
def Obligations.ResetValues : Prop :=
  ∀ (c : Config) (s : State),
    (∀ j : Fin numRegs, (hostReset c s).reg j = if j = spIndex then c.stackTop else 0) ∧
    (hostReset c s).pc.toNat = 0 ∧ (hostReset c s).fl = .unset ∧ (∀ a, (hostReset c s).mem.peek a = 0) ∧
    (hostReset c s).engine = .running ∧ (hostReset c s).fault = none ∧ (hostReset c s).out = [] ∧
    hostReset Config.standard s = State.reset ∧ State.reset.sp = 0xF4

/-- A step before any load fetches 0 at address 0 and faults with UnsupportedOpcode(0) (R261, derived there). That 0 is no
opcode holds of the default OPC, PRESUMED (decision D2); the state kept is decision D8, the record decision D9 (log
entries 1, 5, 9). -/
def Obligations.StepBeforeTheLoadFaults : Prop :=
  step State.reset = .next { State.reset with
    engine := .faulted
    fault := some ⟨.unsupportedOpcode, 0, some 0, 0⟩ }

/-- R262: after Reset an image of at most 256 bytes lands in memory from address 0, byte for byte; the bytes beyond it
keep their reset value 0; registers, `pc`, `fl` and the engine state are as reset left them. -/
def Obligations.LoadPlacesTheImageFromZero : Prop :=
  ∀ (c : Config) (s : State) (image : List Byte), image.length ≤ 256 →
    ∃ m, loadImage (hostReset c s) image = .ok { hostReset c s with mem := m } ∧
      (∀ (k : Nat) (h : k < image.length), m.peek k = image[k]) ∧
      (∀ a, image.length ≤ a → m.peek a = 0)

/-- An image over 256 bytes fails in the loader with OutOfBounds(256), and no state of the engine results (R263, decision
D20, log entry 18). -/
def Obligations.TooLongImageIsTheLoadersError : Prop :=
  ∀ (s : State) (image : List Byte), 256 < image.length → loadImage s image = .error ⟨.outOfBounds, 256⟩

/-- A run that answers ends in a stopped engine, reached by that many cycles of a Running engine and no more, and more
fuel gives the same answer; no answer is never an end state (R118, R267, R269; no cycle guard is decision D19, log entry
20). -/
def Obligations.RunEndsAtTheFirstStop : Prop :=
  ∀ (c : Config) (fuel : Nat) (s t : State), runIn c fuel s = some t →
    t.engine ≠ .running ∧ (∀ more, runIn c (fuel + more) s = some t) ∧
    ∃ n, n ≤ fuel ∧ (stepIn c)^[n] s = t ∧ ∀ k, k < n → ((stepIn c)^[k] s).engine = .running

/-- The empty stack underflows under every `STACK_TOP`: right after reset POP and RETURN record `STACK_TOP + 1` (R226,
vector Z4; the bounds are decision D12, the record's fields decision D9; log entries 9, 11). -/
def Obligations.EmptyStackUnderflowsForEveryStackTop : Prop :=
  ∀ (c : Config) (r : Byte), r.toNat < 8 → r ≠ 7 →
    (effectIn c (.pop r) (State.resetIn c)).fault =
      some ⟨.stackUnderflow, 0, some c.opc.pop, c.stackTop.toNat + 1⟩ ∧
    (effectIn c .ret (State.resetIn c)).fault =
      some ⟨.stackUnderflow, 0, some c.opc.ret, c.stackTop.toNat + 1⟩

/-! ### The whole machine -/

/-- The machine of the fixed names is the machine in its default configuration, and every instruction and every step
answers a next state: there is no stuck state and no stop (00_scope.md section 8, R117; log entries 6, 7). -/
def Obligations.FixedNamesAreTheStandardConfiguration : Prop :=
  (∀ (i : Instr) (s : State), exec i s = .next (effectIn Config.standard i s)) ∧
  (∀ s : State, step s = .next (stepIn Config.standard s))

/-- The invariant (`State.Inv`) holds after reset, under every configuration (10_state.md R34); the canonical form of
memory is the model's (log entry 12). -/
def Obligations.ResetMeetsTheInvariant : Prop :=
  ∀ c : Config, (State.resetIn c).Inv c

/-- Every step keeps the invariant (`State.Inv`: pc at most 256, memory canonical, Faulted exactly with a record, a sound
record of this machine with the pc of this state), from every state that has it and under every configuration (10_state.md
R24, R28, R29; 60_exceptions.md R221 to R226; pc at most 256 is decision D5, that a Faulted state keeps the pc of its
record decision D8, the record's fields decision D9, the bound of an underflow decision D12, the canonical form of memory
the model's choice; log entries 5, 9, 11, 12, 21). -/
def Obligations.StepKeepsTheInvariant : Prop :=
  (∀ s t : State, s.Inv Config.standard → step s = .next t → t.Inv Config.standard) ∧
  (∀ (c : Config) (s : State), s.Inv c → (stepIn c s).Inv c)

/-- No fault arises under the conditions of the last sentence of R238, which is derived there: operands that name
registers, the stack pointer in the range each stack instruction needs, defined opcodes whole in memory. CALL needs `pc +
2 < 256` as well (decision D7); the stack bounds are decision D12 (log entries 8, 11). -/
def Obligations.NoFaultUnderTheConditions : Prop :=
  ∀ (c : Config) (s : State) (i : Instr) (rest : List Byte), s.engine = .running →
    decode c.opc (s.mem.bytesFrom s.pc.toNat 3) = .ok (i, rest) → s.mayRun c i → (stepIn c s).engine ≠ .faulted

/-- What is required of an opcode map, and nothing more (R85): a map is that of some configuration exactly when its
thirteen values are pairwise different, bits 7 to 6 of each are the operand count, and bit 4 is set for JUMP,
JUMP_IF_EQUAL, JUMP_IF_NOT_EQUAL, CALL and RETURN and for no other. The default configuration has the default map
(decision D2, log entry 1), which the spec derives to be one of these. -/
def Obligations.ConfigurationsHaveExactlyTheValidMaps : Prop :=
  (∀ o : Opcodes, (∃ c : Config, c.opc = o) ↔
    (∀ m n : Mnemonic, m ≠ n → o.of m ≠ o.of n) ∧
    (∀ m : Mnemonic, ((o.of m).extractLsb' 6 2).toNat = m.operandCount) ∧
    (∀ m : Mnemonic, (o.of m).getLsbD 4 = true ↔
      m = .jump ∨ m = .jumpIfEqual ∨ m = .jumpIfNotEqual ∨ m = .call ∨ m = .ret)) ∧
  Config.standard.opc = Opcodes.standard

/-- Under every configuration, when the bytes at the program counter are the encoding of an instruction in that
configuration's map, a cycle of a Running engine is that instruction's effect and nothing else (R85, R114, R117). It needs
the constraints on the map, which every configuration meets. -/
def Obligations.EveryConfigurationRunsItsEncodedInstruction : Prop :=
  ∀ (c : Config) (s : State) (i : Instr) (rest : List Byte), s.engine = .running →
    s.mem.bytesFrom s.pc.toNat 3 = encode c.opc i ++ rest → stepIn c s = effectIn c i s
end

