-- ==== Sys2Proof/Laws/Decode.lean ====
section
/-! SUPPORT. What the opcode lookup, the decoder and the encoder answer (30_encoding.md R84 to R88). -/

namespace Sys2Proof

theorem Mnemonic.mem_all (m : Mnemonic) : m ∈ Mnemonic.all := by cases m <;> decide

/-- The lookup answers only a mnemonic whose opcode is the byte. -/
theorem Opcodes.of_lookup {o : Opcodes} {b : Byte} {m : Mnemonic} (h : o.lookup b = some m) : o.of m = b := by
  simpa using List.find?_some h

/-- The lookup refuses exactly the bytes that are no opcode (R86). -/
theorem Opcodes.lookup_eq_none {o : Opcodes} {b : Byte} : o.lookup b = none ↔ ∀ m, o.of m ≠ b := by
  simp only [Opcodes.lookup, List.find?_eq_none, beq_iff_eq]
  exact ⟨fun h m => h m m.mem_all, fun h m _ => h m⟩

/-- Constraint (a) of R85: two mnemonics with one opcode are one. -/
theorem Opcodes.of_injective {o : Opcodes} (h : o.valid = true) {m n : Mnemonic} (hmn : o.of m = o.of n) : m = n := by
  have hp : (Mnemonic.all.map o.of).Nodup := by
    simp only [Opcodes.valid, Bool.and_eq_true, decide_eq_true_eq] at h
    exact List.pairwise_map.2 h.1
  exact List.inj_on_of_nodup_map hp m.mem_all n.mem_all hmn

/-- Under a valid map the lookup finds the mnemonic of every opcode. -/
theorem Opcodes.lookup_of {o : Opcodes} (h : o.valid = true) (m : Mnemonic) : o.lookup (o.of m) = some m := by
  cases hl : o.lookup (o.of m) with
  | none => exact absurd rfl (Opcodes.lookup_eq_none.1 hl m)
  | some n => rw [Opcodes.of_injective h (Opcodes.of_lookup hl)]

/-- Constraints (b) and (c) of R85. -/
theorem Opcodes.bits_of {o : Opcodes} (h : o.valid = true) (m : Mnemonic) :
    opcodeCount (o.of m) = m.operandCount ∧ opcodeSetsPc (o.of m) = m.setsPc := by
  simp only [Opcodes.valid, Bool.and_eq_true, List.all_eq_true, beq_iff_eq] at h
  exact h.2 m m.mem_all

theorem Opcodes.standard_valid : Opcodes.standard.valid = true := by decide

/-- The constraints of R85 as the rule lists them: a map is valid exactly when it meets them. -/
theorem Opcodes.valid_iff {o : Opcodes} : o.valid = true ↔
    (∀ m n, o.of m = o.of n → m = n) ∧ (∀ m, opcodeCount (o.of m) = m.operandCount) ∧
      ∀ m, opcodeSetsPc (o.of m) = m.setsPc := by
  refine ⟨fun h => ⟨fun _ _ => of_injective h, fun m => (bits_of h m).1, fun m => (bits_of h m).2⟩, fun ⟨hi, hc, hp⟩ => ?_⟩
  have hne : Mnemonic.all.Pairwise fun m n => o.of m ≠ o.of n :=
    List.Pairwise.imp (fun hmn h => hmn (hi _ _ h)) (by decide : Mnemonic.all.Pairwise (· ≠ ·))
  simp [Opcodes.valid, hne, hc, hp]

/-- In every configuration the lookup finds the mnemonic of every opcode. -/
@[simp] theorem Config.lookup_of (c : Config) (m : Mnemonic) : c.opc.lookup (c.opc.of m) = some m :=
  Opcodes.lookup_of c.opcValid m

/-- In every configuration a known opcode byte carries its count and its sets-PC flag (R85, R112). -/
theorem Config.bits_of_lookup (c : Config) {b : Byte} {m : Mnemonic} (h : c.opc.lookup b = some m) :
    opcodeCount b = m.operandCount ∧ opcodeSetsPc b = m.setsPc := by
  rw [← Opcodes.of_lookup h]
  exact Opcodes.bits_of c.opcValid m

@[simp] theorem Instr.mnemonic_halt : Instr.halt.mnemonic = .halt := rfl
@[simp] theorem Instr.mnemonic_ret : Instr.ret.mnemonic = .ret := rfl

/-- An instruction has as many operand bytes as its mnemonic says (R82). -/
theorem Instr.operands_length (i : Instr) : i.operands.length = i.mnemonic.operandCount := by cases i <;> rfl

/-- Everything the decoder can answer for a byte and what follows it. -/
theorem decode_cons (o : Opcodes) (b : Byte) (rest : List Byte) :
    decode o (b :: rest) =
      match o.lookup b with
      | none => .error (.unsupportedOpcode b)
      | some m =>
        match m.operandCount, rest with
        | 0, rest => .ok (m.assemble 0 0, rest)
        | 1, op1 :: rest => .ok (m.assemble op1 0, rest)
        | 2, op1 :: op2 :: rest => .ok (m.assemble op1 op2, rest)
        | _, _ => .error (.missingOperand b) := rfl

/-- A byte that is no opcode is refused by name, whatever follows it. -/
theorem decode_unsupported {o : Opcodes} {b : Byte} (rest : List Byte) (h : o.lookup b = none) :
    decode o (b :: rest) = .error (.unsupportedOpcode b) := by
  rw [decode_cons, h]

theorem Mnemonic.operandCount_le (m : Mnemonic) : m.operandCount ≤ 2 := by cases m <;> decide

/-- The mnemonic and the operands of an assembled instruction. -/
theorem Mnemonic.assemble_mnemonic (m : Mnemonic) (op1 op2 : Byte) : (m.assemble op1 op2).mnemonic = m := by cases m <;> rfl

theorem Mnemonic.assemble_operands (m : Mnemonic) (op1 op2 : Byte) :
    (m.assemble op1 op2).operands = [op1, op2].take m.operandCount := by cases m <;> rfl

end Sys2Proof
end

