-- ==== Sys2Proof/Laws/Memory.lean ====
section
/-! SUPPORT. Reading after writing, and that every memory operation keeps the canonical form (20_memory.md R51 to R53). -/

namespace Sys2Proof.Machine

@[simp] theorem Memory.peek_nil (a : Nat) : Memory.peek [] a = 0 := rfl

theorem Memory.peek_cons (b a : Nat) (v : Byte) (rest : Memory) :
    Memory.peek ((b, v) :: rest) a = if b = a then v else Memory.peek rest a := rfl

/-- An address that no cell lists reads as `unlisted`. -/
theorem Memory.peek_of_unlisted (m : Memory) (a : Nat) (h : ∀ cell ∈ m, cell.1 ≠ a) : m.peek a = Memory.unlisted := by
  induction m with
  | nil => rfl
  | cons cell rest ih =>
    obtain ⟨b, v⟩ := cell
    rw [Memory.peek_cons, if_neg (h (b, v) (by simp))]
    exact ih fun c hc => h c (by simp [hc])

/-- Erasing one address leaves every other address alone. -/
theorem Memory.peek_erase_other (m : Memory) {a b : Nat} (h : a ≠ b) :
    Memory.peek (m.filter fun cell => cell.1 ≠ a) b = m.peek b := by
  induction m with
  | nil => rfl
  | cons cell rest ih =>
    obtain ⟨c, v⟩ := cell
    by_cases hc : c = a
    · subst hc
      simpa [Memory.peek_cons, h] using ih
    · by_cases hb : c = b <;> simp_all [Memory.peek_cons]

/-- Inserting a cell changes no other address. -/
theorem Memory.peek_insertCell_other (m : Memory) (v : Byte) {a b : Nat} (h : a ≠ b) :
    Memory.peek (Memory.insertCell a v m) b = m.peek b := by
  induction m with
  | nil => simp [Memory.insertCell, Memory.peek_cons, h]
  | cons cell rest ih =>
    obtain ⟨c, w⟩ := cell
    simp only [Memory.insertCell]
    split <;> simp_all [Memory.peek_cons]

/-- A cell inserted where no cell has its address is read there. -/
theorem Memory.peek_insertCell_same (m : Memory) (v : Byte) (a : Nat) (h : ∀ cell ∈ m, cell.1 ≠ a) :
    Memory.peek (Memory.insertCell a v m) a = v := by
  induction m with
  | nil => simp [Memory.insertCell, Memory.peek_cons]
  | cons cell rest ih =>
    obtain ⟨c, w⟩ := cell
    have hc : c ≠ a := h (c, w) (by simp)
    have hr := ih fun d hd => h d (by simp [hd])
    simp only [Memory.insertCell]
    split <;> simp [Memory.peek_cons, hc, hr]

/-- A read after a write gives the value written at its address and the old value elsewhere (R52, R53). -/
theorem Memory.peek_poke (m : Memory) (a b : Nat) (v : Byte) :
    (m.poke a v).peek b = if a = b then v else m.peek b := by
  have hfresh : ∀ cell ∈ m.filter fun cell => cell.1 ≠ a, cell.1 ≠ a := by simp
  by_cases hab : a = b <;> by_cases hv : v = Memory.unlisted
  · subst hab
    simpa only [Memory.poke, if_pos hv, if_true] using (Memory.peek_of_unlisted _ a hfresh).trans hv.symm
  · subst hab
    simpa only [Memory.poke, if_neg hv, if_true] using Memory.peek_insertCell_same _ v a hfresh
  · simpa only [Memory.poke, if_pos hv, if_neg hab] using Memory.peek_erase_other m hab
  · simpa only [Memory.poke, if_neg hv, if_neg hab] using
      (Memory.peek_insertCell_other _ v hab).trans (Memory.peek_erase_other m hab)

@[simp] theorem Memory.peek_poke_same (m : Memory) (a : Nat) (v : Byte) : (m.poke a v).peek a = v := by
  simp [Memory.peek_poke]

theorem Memory.peek_poke_other (m : Memory) {a b : Nat} (v : Byte) (h : a ≠ b) : (m.poke a v).peek b = m.peek b := by
  simp [Memory.peek_poke, h]

/-! ### The canonical form -/

theorem Memory.wfFrom_cons (lo a : Nat) (v : Byte) (rest : Memory) :
    Memory.wfFrom lo ((a, v) :: rest) = true ↔
      lo ≤ a ∧ a < memSize ∧ v ≠ Memory.unlisted ∧ Memory.wfFrom (a + 1) rest = true := by
  simp only [Memory.wfFrom, Bool.and_eq_true, decide_eq_true_eq, and_assoc]

/-- A list canonical from an address on is canonical from every lower one. -/
theorem Memory.wfFrom_mono {lo hi : Nat} {m : Memory} (hle : lo ≤ hi) (h : Memory.wfFrom hi m = true) :
    Memory.wfFrom lo m = true := by
  cases m with
  | nil => rfl
  | cons cell rest =>
    obtain ⟨a, v⟩ := cell
    rw [Memory.wfFrom_cons] at h ⊢
    exact ⟨hle.trans h.1, h.2⟩

theorem Memory.wfFrom_erase {lo : Nat} {m : Memory} (a : Nat) (h : Memory.wfFrom lo m = true) :
    Memory.wfFrom lo (m.filter fun cell => cell.1 ≠ a) = true := by
  induction m generalizing lo with
  | nil => rfl
  | cons cell rest ih =>
    obtain ⟨b, v⟩ := cell
    obtain ⟨hlo, hb, hv, hrest⟩ := (Memory.wfFrom_cons ..).1 h
    by_cases hba : b = a
    · simpa [hba] using Memory.wfFrom_mono (by omega) (ih hrest)
    · simpa [hba] using (Memory.wfFrom_cons ..).2 ⟨hlo, hb, hv, by simpa using ih hrest⟩

theorem Memory.wfFrom_insertCell {lo : Nat} {m : Memory} {a : Nat} {v : Byte} (h : Memory.wfFrom lo m = true)
    (hlo : lo ≤ a) (ha : a < memSize) (hv : v ≠ Memory.unlisted) (hfresh : ∀ cell ∈ m, cell.1 ≠ a) :
    Memory.wfFrom lo (Memory.insertCell a v m) = true := by
  induction m generalizing lo with
  | nil => exact (Memory.wfFrom_cons ..).2 ⟨hlo, ha, hv, rfl⟩
  | cons cell rest ih =>
    obtain ⟨b, w⟩ := cell
    obtain ⟨hlb, hb, hw, hrest⟩ := (Memory.wfFrom_cons ..).1 h
    have hba : b ≠ a := hfresh (b, w) (by simp)
    simp only [Memory.insertCell]
    split
    · exact (Memory.wfFrom_cons ..).2 ⟨hlo, ha, hv, (Memory.wfFrom_cons ..).2 ⟨by omega, hb, hw, hrest⟩⟩
    · exact (Memory.wfFrom_cons ..).2 ⟨hlb, hb, hw, ih hrest (by omega) fun c hc => hfresh c (by simp [hc])⟩

/-- A write inside memory keeps the canonical form. -/
theorem Memory.wf_poke {m : Memory} {a : Nat} (v : Byte) (h : m.wf = true) (ha : a < memSize) : (m.poke a v).wf = true := by
  by_cases hv : v = Memory.unlisted
  · simpa only [Memory.wf, Memory.poke, if_pos hv] using Memory.wfFrom_erase a h
  · simpa only [Memory.wf, Memory.poke, if_neg hv] using
      Memory.wfFrom_insertCell (Memory.wfFrom_erase a h) (Nat.zero_le a) ha hv (by simp)

/-- Storing a word of the opcode table keeps the canonical form. -/
theorem Memory.wf_pokeBytes {m : Memory} (a : Nat) (bytes : List Byte) (h : m.wf = true) :
    (m.pokeBytes a bytes).wf = true := by
  induction bytes generalizing m a with
  | nil => exact h
  | cons b rest ih =>
    simp only [Memory.pokeBytes]
    refine ih (a + 1) ?_
    split
    · exact Memory.wf_poke b h ‹_›
    · exact h

/-- Reset memory is canonical. -/
theorem State.resetIn_mem_wf (c : Config) : (State.resetIn c).mem.wf = true := rfl

end Sys2Proof.Machine
end

