-- ==== Sys2Proof/Laws/State.lean ====
section
/-! SUPPORT. One lemma per field per update of the state, so that no proof unfolds a record update. -/

namespace Sys2Proof.Machine

variable (s : State) (i j : Fin numRegs) (v : Byte) (k : Nat) (o : Option Byte) (e : Raise) (m : Memory) (f : Flag)

/-! ### The register array under each update (10_state.md R20: a write of one register changes no other) -/

@[simp] theorem State.reg_setReg : (s.setReg i v).reg j = if i = j then v else s.reg j := by
  simp only [State.reg, State.setReg, Fin.getElem_fin, Vector.getElem_set, Fin.ext_iff]

@[simp] theorem State.reg_setSp : (s.setSp v).reg j = if spIndex = j then v else s.reg j := State.reg_setReg s spIndex j v
@[simp] theorem State.reg_advance : (s.advance k).reg j = s.reg j := rfl
@[simp] theorem State.reg_goto : (s.goto v).reg j = s.reg j := rfl
@[simp] theorem State.reg_emit : (s.emit v).reg j = s.reg j := rfl
@[simp] theorem State.reg_takeFault : (takeFault o e s).reg j = s.reg j := rfl
@[simp] theorem State.reg_withMem : ({ s with mem := m } : State).reg j = s.reg j := rfl
@[simp] theorem State.reg_withFl : ({ s with fl := f } : State).reg j = s.reg j := rfl
@[simp] theorem State.reg_withOut (os : List Byte) : ({ s with out := os } : State).reg j = s.reg j := rfl
@[simp] theorem State.reg_withEngine (g : EngineState) : ({ s with engine := g } : State).reg j = s.reg j := rfl
@[simp] theorem State.reg_withPc (p : PcWord) : ({ s with pc := p } : State).reg j = s.reg j := rfl

/-! ### setReg -/

@[simp] theorem State.pc_setReg : (s.setReg i v).pc = s.pc := rfl
@[simp] theorem State.fl_setReg : (s.setReg i v).fl = s.fl := rfl
@[simp] theorem State.mem_setReg : (s.setReg i v).mem = s.mem := rfl
@[simp] theorem State.engine_setReg : (s.setReg i v).engine = s.engine := rfl
@[simp] theorem State.fault_setReg : (s.setReg i v).fault = s.fault := rfl
@[simp] theorem State.out_setReg : (s.setReg i v).out = s.out := rfl

/-! ### setSp -/

@[simp] theorem State.pc_setSp : (s.setSp v).pc = s.pc := rfl
@[simp] theorem State.fl_setSp : (s.setSp v).fl = s.fl := rfl
@[simp] theorem State.mem_setSp : (s.setSp v).mem = s.mem := rfl
@[simp] theorem State.engine_setSp : (s.setSp v).engine = s.engine := rfl
@[simp] theorem State.fault_setSp : (s.setSp v).fault = s.fault := rfl
@[simp] theorem State.out_setSp : (s.setSp v).out = s.out := rfl

/-! ### advance -/

@[simp] theorem State.x_advance : (s.advance k).x = s.x := rfl
@[simp] theorem State.pc_advance : (s.advance k).pc = s.pc + BitVec.ofNat 9 k := rfl
@[simp] theorem State.fl_advance : (s.advance k).fl = s.fl := rfl
@[simp] theorem State.mem_advance : (s.advance k).mem = s.mem := rfl
@[simp] theorem State.engine_advance : (s.advance k).engine = s.engine := rfl
@[simp] theorem State.fault_advance : (s.advance k).fault = s.fault := rfl
@[simp] theorem State.out_advance : (s.advance k).out = s.out := rfl

/-! ### goto -/

@[simp] theorem State.x_goto : (s.goto v).x = s.x := rfl
@[simp] theorem State.pc_goto : (s.goto v).pc = v.setWidth 9 := rfl
@[simp] theorem State.fl_goto : (s.goto v).fl = s.fl := rfl
@[simp] theorem State.mem_goto : (s.goto v).mem = s.mem := rfl
@[simp] theorem State.engine_goto : (s.goto v).engine = s.engine := rfl
@[simp] theorem State.fault_goto : (s.goto v).fault = s.fault := rfl
@[simp] theorem State.out_goto : (s.goto v).out = s.out := rfl

/-! ### emit -/

@[simp] theorem State.x_emit : (s.emit v).x = s.x := rfl
@[simp] theorem State.pc_emit : (s.emit v).pc = s.pc := rfl
@[simp] theorem State.fl_emit : (s.emit v).fl = s.fl := rfl
@[simp] theorem State.mem_emit : (s.emit v).mem = s.mem := rfl
@[simp] theorem State.engine_emit : (s.emit v).engine = s.engine := rfl
@[simp] theorem State.fault_emit : (s.emit v).fault = s.fault := rfl
@[simp] theorem State.out_emit : (s.emit v).out = s.out ++ [v] := rfl

/-! ### takeFault (60_exceptions.md R229) -/

@[simp] theorem State.x_takeFault : (takeFault o e s).x = s.x := rfl
@[simp] theorem State.pc_takeFault : (takeFault o e s).pc = s.pc := rfl
@[simp] theorem State.fl_takeFault : (takeFault o e s).fl = s.fl := rfl
@[simp] theorem State.mem_takeFault : (takeFault o e s).mem = s.mem := rfl
@[simp] theorem State.engine_takeFault : (takeFault o e s).engine = .faulted := rfl
@[simp] theorem State.fault_takeFault : (takeFault o e s).fault = some ⟨e.kind, s.pc, o, e.info⟩ := rfl
@[simp] theorem State.out_takeFault : (takeFault o e s).out = s.out := rfl

/-! ### The stack pointer is register 7 (R22) -/

theorem State.sp_eq_reg : s.sp = s.reg 7 := rfl

@[simp] theorem State.sp_setSp : (s.setSp v).sp = v := by simp [State.sp]
@[simp] theorem State.sp_advance : (s.advance k).sp = s.sp := rfl
@[simp] theorem State.sp_goto : (s.goto v).sp = s.sp := rfl
@[simp] theorem State.sp_withMem : ({ s with mem := m } : State).sp = s.sp := rfl
@[simp] theorem State.sp_withFl : ({ s with fl := f } : State).sp = s.sp := rfl
@[simp] theorem State.sp_withOut (os : List Byte) : ({ s with out := os } : State).sp = s.sp := rfl

/-! ### The program counter as a number -/

/-- A sum that stays below 512 is the exact sum (40_engine_cycle.md R115: not reduced modulo 256). -/
theorem State.pc_advance_toNat (h : s.pc.toNat + k < 512) : (s.advance k).pc.toNat = s.pc.toNat + k := by
  simp only [State.pc_advance, BitVec.toNat_add, BitVec.toNat_ofNat]
  omega

/-- A byte as a program counter is the same number. -/
@[simp high] theorem toNat_target : (v.setWidth 9 : PcWord).toNat = v.toNat := by
  have := v.isLt
  simp only [BitVec.toNat_setWidth]
  omega

/-- A jump target is a byte (43_jumps.md R173). -/
theorem State.pc_goto_toNat : (s.goto v).pc.toNat = v.toNat := toNat_target v

end Sys2Proof.Machine
end

