-- ==== Sys2Proof/Laws/Ops.lean ====
section
/-! SUPPORT. One specification per shared operation: everything it can answer. Later proofs cite these and do not unfold the
operation. -/

namespace Sys2Proof.Machine

variable {c : Config} {s t : State}

/-! ### The Except monad of the tests -/

@[simp] theorem ok_bind {α β : Type} (a : α) (f : α → Except Raise β) : (Except.ok a >>= f) = f a := rfl
@[simp] theorem error_bind {α β : Type} (e : Raise) (f : α → Except Raise β) :
    ((Except.error e : Except Raise α) >>= f) = .error e := rfl

/-! ### settle: a cycle ends in its result or in fault entry (R10) -/

@[simp] theorem settle_ok (o : Option Byte) : settle o s (.ok t) = t := rfl
@[simp] theorem settle_error (o : Option Byte) (e : Raise) : settle o s (.error e) = takeFault o e s := rfl

/-! ### Memory access (R51, R52) -/

theorem memRead_of_lt {a : Nat} (h : a < 256) : memRead s a = .ok (s.mem.peek a) := if_pos h
theorem memRead_of_ge {a : Nat} (h : 256 ≤ a) : memRead s a = .error ⟨.outOfBounds, a⟩ := if_neg (Nat.not_lt.2 h)

/-- A read at a register's value cannot fault: it is a byte (R64). -/
@[simp] theorem memRead_byte (b : Byte) : memRead s b.toNat = .ok (s.mem.peek b.toNat) := memRead_of_lt b.isLt

theorem memWrite_of_lt {a : Nat} (v : Byte) (h : a < 256) : memWrite s a v = .ok { s with mem := s.mem.poke a v } := if_pos h
theorem memWrite_of_ge {a : Nat} (v : Byte) (h : 256 ≤ a) : memWrite s a v = .error ⟨.outOfBounds, a⟩ := if_neg (Nat.not_lt.2 h)

/-! ### Register access (R23) -/

theorem regIndex_of_lt {b : Byte} (h : b.toNat < 8) : regIndex b = .ok ⟨b.toNat, h⟩ := dif_pos h
theorem regIndex_of_ge {b : Byte} (h : 8 ≤ b.toNat) : regIndex b = .error ⟨.invalidRegister, b.toNat⟩ :=
  dif_neg (by simp only [numRegs]; omega)

/-- Everything an index check can answer. -/
theorem regIndex_cases (b : Byte) :
    (∃ h : b.toNat < 8, regIndex b = .ok ⟨b.toNat, h⟩) ∨ (8 ≤ b.toNat ∧ regIndex b = .error ⟨.invalidRegister, b.toNat⟩) := by
  by_cases h : b.toNat < 8
  · exact .inl ⟨h, regIndex_of_lt h⟩
  · exact .inr ⟨by omega, regIndex_of_ge (by omega)⟩

theorem regGet_of_lt {b : Byte} (h : b.toNat < 8) : regGet s b = .ok (s.reg ⟨b.toNat, h⟩) := by
  simp [regGet, regIndex_of_lt h]
theorem regGet_of_ge {b : Byte} (h : 8 ≤ b.toNat) : regGet s b = .error ⟨.invalidRegister, b.toNat⟩ := by
  simp [regGet, regIndex_of_ge h]
theorem regSet_of_lt {b : Byte} (v : Byte) (h : b.toNat < 8) : regSet s b v = .ok (s.setReg ⟨b.toNat, h⟩ v) := by
  simp [regSet, regIndex_of_lt h]
theorem regSet_of_ge {b : Byte} (v : Byte) (h : 8 ≤ b.toNat) : regSet s b v = .error ⟨.invalidRegister, b.toNat⟩ := by
  simp [regSet, regIndex_of_ge h]

/-! ### The stack check (R33) -/

theorem stackCheck_below {n : Int} (h : n < 0) : stackCheck c n = .error ⟨.stackOverflow, n⟩ := if_pos h
theorem stackCheck_above {n : Int} (h : c.stackTop.toNat < n) : stackCheck c n = .error ⟨.stackUnderflow, n⟩ := by
  rw [stackCheck, if_neg (by omega), if_pos h]
theorem stackCheck_ok {n : Int} (h0 : 0 ≤ n) (h1 : n ≤ c.stackTop.toNat) : stackCheck c n = .ok () := by
  rw [stackCheck, if_neg (by omega), if_neg (by omega)]

/-- Everything the stack check can answer. -/
theorem stackCheck_cases (c : Config) (n : Int) :
    (n < 0 ∧ stackCheck c n = .error ⟨.stackOverflow, n⟩) ∨
    (c.stackTop.toNat < n ∧ stackCheck c n = .error ⟨.stackUnderflow, n⟩) ∨
    (0 ≤ n ∧ n ≤ c.stackTop.toNat ∧ stackCheck c n = .ok ()) := by
  rcases lt_or_ge n 0 with h | h
  · exact .inl ⟨h, stackCheck_below h⟩
  · rcases lt_or_ge (c.stackTop.toNat : Int) n with h' | h'
    · exact .inr (.inl ⟨h', stackCheck_above h'⟩)
    · exact .inr (.inr ⟨h, h', stackCheck_ok h h'⟩)

/-- An accepted stack pointer fits a byte (R33). -/
theorem accepted_sp_toNat {n : Int} (h0 : 0 ≤ n) (h1 : n ≤ c.stackTop.toNat) :
    ((BitVec.ofInt 8 n).toNat : Int) = n ∧ n.toNat < 256 := by
  have hlt := c.stackTop.isLt
  rw [BitVec.toNat_ofInt]
  omega

/-! ### The stack store -/

/-- The state after a byte was stored at the new stack pointer `n` (R32). -/
abbrev stored (s : State) (n : Int) (v : Byte) : State :=
  State.setSp { s with mem := s.mem.poke n.toNat v } (BitVec.ofInt 8 n)

/-- Storing at an accepted stack pointer cannot fault (20_memory.md R64). -/
theorem storeAtSp_ok {n : Int} (v : Byte) (h0 : 0 ≤ n) (h1 : n ≤ c.stackTop.toNat) :
    storeAtSp s n v = .ok (stored s n v) := by
  simp [storeAtSp, memWrite_of_lt v (accepted_sp_toNat h0 h1).2]

theorem regAfterSp_of_lt {r : Byte} {n : Int} (h : r.toNat < 8) :
    regAfterSp s r n = .ok (if (⟨r.toNat, h⟩ : Fin numRegs) = spIndex then BitVec.ofInt 8 n else s.reg ⟨r.toNat, h⟩) := by
  simp [regAfterSp, regIndex_of_lt h]
theorem regAfterSp_of_ge {r : Byte} {n : Int} (h : 8 ≤ r.toNat) :
    regAfterSp s r n = .error ⟨.invalidRegister, r.toNat⟩ := by
  simp [regAfterSp, regIndex_of_ge h]

/-! ### CALL's return address (R192) -/

theorem returnAddress_of_lt (h : s.pc.toNat + 2 < 256) : returnAddress s = .ok (BitVec.ofNat 8 (s.pc.toNat + 2)) := if_pos h
theorem returnAddress_of_ge (h : 256 ≤ s.pc.toNat + 2) :
    returnAddress s = .error ⟨.outOfBounds, (s.pc.toNat + 2 : Nat)⟩ := if_neg (Nat.not_lt.2 h)

end Sys2Proof.Machine
end

