-- ==== Sys2Proof/Laws/Effects.lean ====
section
/-! SUPPORT. One lemma per instruction that says everything it can do: its tests in their order, with the fault each raises,
and its one successful end. Every later proof about an instruction cites these. -/

namespace Sys2Proof.Machine

variable (c : Config) (s : State)

/-- An access through an operand of 8 or more (60_exceptions.md R222). -/
abbrev badIndex (b : Byte) : Raise := ⟨.invalidRegister, b.toNat⟩

theorem haltIn_eq : haltIn c s = { s.advance 1 with engine := .halted } := rfl

theorem loadImmediateIn_cases (r v : Byte) :
    (8 ≤ r.toNat ∧ loadImmediateIn c r v s = takeFault (some c.opc.loadImmediate) (badIndex r) s) ∨
    (∃ h : r.toNat < 8, loadImmediateIn c r v s = (s.setReg ⟨r.toNat, h⟩ v).advance 3) := by
  rcases regIndex_cases r with ⟨h, -⟩ | ⟨h, -⟩
  · exact .inr ⟨h, by simp [loadImmediateIn, regSet_of_lt v h]⟩
  · exact .inl ⟨h, by simp [loadImmediateIn, regSet_of_ge v h, Opcodes.of]⟩

theorem printRegIn_cases (r : Byte) :
    (8 ≤ r.toNat ∧ printRegIn c r s = takeFault (some c.opc.printReg) (badIndex r) s) ∨
    (∃ h : r.toNat < 8, printRegIn c r s = (s.emit (s.reg ⟨r.toNat, h⟩)).advance 2) := by
  rcases regIndex_cases r with ⟨h, -⟩ | ⟨h, -⟩
  · exact .inr ⟨h, by simp [printRegIn, regGet_of_lt h]⟩
  · exact .inl ⟨h, by simp [printRegIn, regGet_of_ge h, Opcodes.of]⟩

/-- The ALU's two index tests in their order, and its result (42_alu.md R150). -/
theorem alu_cases (kind : AluKind) (a b : Byte) :
    (8 ≤ a.toNat ∧ alu kind a b s = .error (badIndex a)) ∨
    (a.toNat < 8 ∧ 8 ≤ b.toNat ∧ alu kind a b s = .error (badIndex b)) ∨
    (∃ (ha : a.toNat < 8) (hb : b.toNat < 8),
      alu kind a b s = .ok (match kind with
        | .add => s.setReg ⟨a.toNat, ha⟩ (aluSum (s.reg ⟨a.toNat, ha⟩) (s.reg ⟨b.toNat, hb⟩))
        | .multiply => s.setReg ⟨a.toNat, ha⟩ (aluProduct (s.reg ⟨a.toNat, ha⟩) (s.reg ⟨b.toNat, hb⟩))
        | .compare => { s with fl := compareFlag (s.reg ⟨a.toNat, ha⟩) (s.reg ⟨b.toNat, hb⟩) })) := by
  rcases regIndex_cases a with ⟨ha, -⟩ | ⟨ha, -⟩
  · rcases regIndex_cases b with ⟨hb, -⟩ | ⟨hb, -⟩
    · refine .inr (.inr ⟨ha, hb, ?_⟩)
      cases kind <;> simp [alu, regGet_of_lt ha, regGet_of_lt hb, regSet_of_lt _ ha]
    · exact .inr (.inl ⟨ha, hb, by simp [alu, regGet_of_lt ha, regGet_of_ge hb]⟩)
  · exact .inl ⟨ha, by simp [alu, regGet_of_ge ha]⟩

theorem aluStepIn_cases (m : Mnemonic) (kind : AluKind) (a b : Byte) :
    (8 ≤ a.toNat ∧ aluStepIn c m kind a b s = takeFault (some (c.opc.of m)) (badIndex a) s) ∨
    (a.toNat < 8 ∧ 8 ≤ b.toNat ∧ aluStepIn c m kind a b s = takeFault (some (c.opc.of m)) (badIndex b) s) ∨
    (∃ t, alu kind a b s = .ok t ∧ aluStepIn c m kind a b s = t.advance 3) := by
  rcases alu_cases s kind a b with ⟨ha, h⟩ | ⟨ha, hb, h⟩ | ⟨ha, hb, h⟩
  · exact .inl ⟨ha, by simp [aluStepIn, h]⟩
  · exact .inr (.inl ⟨ha, hb, by simp [aluStepIn, h]⟩)
  · exact .inr (.inr ⟨_, h, by simp [aluStepIn, h]⟩)

theorem jumpToReg_cases (r : Byte) :
    (8 ≤ r.toNat ∧ jumpToReg r s = .error (badIndex r)) ∨
    (∃ h : r.toNat < 8, jumpToReg r s = .ok (s.goto (s.reg ⟨r.toNat, h⟩))) := by
  rcases regIndex_cases r with ⟨h, -⟩ | ⟨h, -⟩
  · exact .inr ⟨h, by simp [jumpToReg, regGet_of_lt h]⟩
  · exact .inl ⟨h, by simp [jumpToReg, regGet_of_ge h]⟩

theorem jumpIn_cases (r : Byte) :
    (8 ≤ r.toNat ∧ jumpIn c r s = takeFault (some c.opc.jump) (badIndex r) s) ∨
    (∃ h : r.toNat < 8, jumpIn c r s = s.goto (s.reg ⟨r.toNat, h⟩)) := by
  rcases jumpToReg_cases s r with ⟨h, hj⟩ | ⟨h, hj⟩
  · exact .inl ⟨h, by simp [jumpIn, hj, Opcodes.of]⟩
  · exact .inr ⟨h, by simp [jumpIn, hj]⟩

/-- A conditional jump that is not taken accesses no register (43_jumps.md R171, R172). -/
theorem jumpWhenIn_cases (m : Mnemonic) (taken : Bool) (r : Byte) :
    (taken = false ∧ jumpWhenIn c m taken r s = s.advance 2) ∨
    (taken = true ∧ 8 ≤ r.toNat ∧ jumpWhenIn c m taken r s = takeFault (some (c.opc.of m)) (badIndex r) s) ∨
    (taken = true ∧ ∃ h : r.toNat < 8, jumpWhenIn c m taken r s = s.goto (s.reg ⟨r.toNat, h⟩)) := by
  cases taken with
  | false => exact .inl ⟨rfl, rfl⟩
  | true =>
    rcases jumpToReg_cases s r with ⟨h, hj⟩ | ⟨h, hj⟩
    · exact .inr (.inl ⟨rfl, h, by simp [jumpWhenIn, hj]⟩)
    · exact .inr (.inr ⟨rfl, h, by simp [jumpWhenIn, hj]⟩)

/-- What PUSH and CALL read from their register: the decremented stack pointer when it is register 7 (R195). -/
abbrev regUnderSp (s : State) (k : Fin numRegs) : Byte := if k = spIndex then BitVec.ofInt 8 (spDown s) else s.reg k

theorem pushIn_cases (r : Byte) :
    (spDown s < 0 ∧ pushIn c r s = takeFault (some c.opc.push) ⟨.stackOverflow, spDown s⟩ s) ∨
    (c.stackTop.toNat < spDown s ∧ pushIn c r s = takeFault (some c.opc.push) ⟨.stackUnderflow, spDown s⟩ s) ∨
    (0 ≤ spDown s ∧ spDown s ≤ c.stackTop.toNat ∧ 8 ≤ r.toNat ∧
      pushIn c r s = takeFault (some c.opc.push) (badIndex r) s) ∨
    (0 ≤ spDown s ∧ spDown s ≤ c.stackTop.toNat ∧ ∃ h : r.toNat < 8,
      pushIn c r s = (stored s (spDown s) (regUnderSp s ⟨r.toNat, h⟩)).advance 2) := by
  rcases stackCheck_cases c (spDown s) with ⟨h, hc⟩ | ⟨h, hc⟩ | ⟨h0, h1, hc⟩
  · exact .inl ⟨h, by simp [pushIn, hc, Opcodes.of]⟩
  · exact .inr (.inl ⟨h, by simp [pushIn, hc, Opcodes.of]⟩)
  · rcases regIndex_cases r with ⟨h, -⟩ | ⟨h, -⟩
    · exact .inr (.inr (.inr ⟨h0, h1, h, by simp [pushIn, hc, regAfterSp_of_lt h, storeAtSp_ok _ h0 h1]⟩))
    · exact .inr (.inr (.inl ⟨h0, h1, h, by simp [pushIn, hc, regAfterSp_of_ge h, Opcodes.of]⟩))

theorem callIn_cases (r : Byte) :
    (spDown s < 0 ∧ callIn c r s = takeFault (some c.opc.call) ⟨.stackOverflow, spDown s⟩ s) ∨
    (c.stackTop.toNat < spDown s ∧ callIn c r s = takeFault (some c.opc.call) ⟨.stackUnderflow, spDown s⟩ s) ∨
    (0 ≤ spDown s ∧ spDown s ≤ c.stackTop.toNat ∧ 256 ≤ s.pc.toNat + 2 ∧
      callIn c r s = takeFault (some c.opc.call) ⟨.outOfBounds, (s.pc.toNat + 2 : Nat)⟩ s) ∨
    (0 ≤ spDown s ∧ spDown s ≤ c.stackTop.toNat ∧ s.pc.toNat + 2 < 256 ∧ 8 ≤ r.toNat ∧
      callIn c r s = takeFault (some c.opc.call) (badIndex r) s) ∨
    (0 ≤ spDown s ∧ spDown s ≤ c.stackTop.toNat ∧ s.pc.toNat + 2 < 256 ∧ ∃ h : r.toNat < 8,
      callIn c r s = (stored s (spDown s) (BitVec.ofNat 8 (s.pc.toNat + 2))).goto (regUnderSp s ⟨r.toNat, h⟩)) := by
  rcases stackCheck_cases c (spDown s) with ⟨h, hc⟩ | ⟨h, hc⟩ | ⟨h0, h1, hc⟩
  · exact .inl ⟨h, by simp [callIn, hc, Opcodes.of]⟩
  · exact .inr (.inl ⟨h, by simp [callIn, hc, Opcodes.of]⟩)
  · rcases Nat.lt_or_ge (s.pc.toNat + 2) 256 with hp | hp
    · rcases regIndex_cases r with ⟨h, -⟩ | ⟨h, -⟩
      · exact .inr (.inr (.inr (.inr ⟨h0, h1, hp, h,
          by simp [callIn, hc, returnAddress_of_lt hp, regAfterSp_of_lt h, storeAtSp_ok _ h0 h1]⟩)))
      · exact .inr (.inr (.inr (.inl ⟨h0, h1, hp, h,
          by simp [callIn, hc, returnAddress_of_lt hp, regAfterSp_of_ge h, Opcodes.of]⟩)))
    · exact .inr (.inr (.inl ⟨h0, h1, hp, by simp [callIn, hc, returnAddress_of_ge hp, Opcodes.of]⟩))

/-- The new stack pointer of a POP before its check: one more than the stack pointer after the register was written
(44_stack_and_subroutines.md R191, R195). -/
def popSp (s : State) (k : Fin numRegs) : Int :=
  ((if k = spIndex then (s.mem.peek s.sp.toNat).toNat else s.sp.toNat : Nat) : Int) + 1

theorem popIn_cases (r : Byte) :
    (8 ≤ r.toNat ∧ popIn c r s = takeFault (some c.opc.pop) (badIndex r) s) ∨
    (∃ h : r.toNat < 8, c.stackTop.toNat < popSp s ⟨r.toNat, h⟩ ∧
      popIn c r s = takeFault (some c.opc.pop) ⟨.stackUnderflow, popSp s ⟨r.toNat, h⟩⟩ s) ∨
    (∃ h : r.toNat < 8, popSp s ⟨r.toNat, h⟩ ≤ c.stackTop.toNat ∧
      popIn c r s = ((s.setReg ⟨r.toNat, h⟩ (s.mem.peek s.sp.toNat)).setSp
        (BitVec.ofInt 8 (popSp s ⟨r.toNat, h⟩))).advance 2) := by
  rcases regIndex_cases r with ⟨h, hr⟩ | ⟨h, hr⟩
  · have hpos : 0 ≤ popSp s ⟨r.toNat, h⟩ := by unfold popSp; omega
    have hrun : popIn c r s = settle (some c.opc.pop) s (stackCheck c (popSp s ⟨r.toNat, h⟩) >>= fun _ =>
        .ok (((s.setReg ⟨r.toNat, h⟩ (s.mem.peek s.sp.toNat)).setSp
          (BitVec.ofInt 8 (popSp s ⟨r.toNat, h⟩))).advance 2)) := by
      simp [popIn, hr, popSp, Opcodes.of, Nat.cast_ite]
    rcases stackCheck_cases c (popSp s ⟨r.toNat, h⟩) with ⟨h', -⟩ | ⟨h', hc⟩ | ⟨-, h', hc⟩
    · omega
    · exact .inr (.inl ⟨h, h', by rw [hrun, hc]; rfl⟩)
    · exact .inr (.inr ⟨h, h', by rw [hrun, hc]; rfl⟩)
  · exact .inl ⟨h, by simp [popIn, hr, Opcodes.of]⟩

theorem retIn_cases :
    ((c.stackTop.toNat : Int) < s.sp.toNat + 1 ∧
      retIn c s = takeFault (some c.opc.ret) ⟨.stackUnderflow, s.sp.toNat + 1⟩ s) ∨
    ((s.sp.toNat : Int) + 1 ≤ c.stackTop.toNat ∧
      retIn c s = (s.goto (s.mem.peek s.sp.toNat)).setSp (BitVec.ofInt 8 (s.sp.toNat + 1))) := by
  rcases stackCheck_cases c (s.sp.toNat + 1) with ⟨h, -⟩ | ⟨h, hc⟩ | ⟨-, h, hc⟩
  · omega
  · exact .inl ⟨h, by simp [retIn, hc, Opcodes.of]⟩
  · exact .inr ⟨h, by simp [retIn, hc]⟩

/-! ### The whole instruction set at once -/

/-- Which fault each instruction can raise, and when (60_exceptions.md R238). -/
inductive MayRaise (c : Config) (s : State) : Instr → Raise → Prop
  | badIndex {i : Instr} {b : Byte} (hmem : b ∈ i.registerOperands) (h : 8 ≤ b.toNat) : MayRaise c s i (badIndex b)
  | pushOverflow {r : Byte} (h : spDown s = -1) : MayRaise c s (.push r) ⟨.stackOverflow, -1⟩
  | callOverflow {r : Byte} (h : spDown s = -1) : MayRaise c s (.call r) ⟨.stackOverflow, -1⟩
  | pushUnderflow {r : Byte} {n : Int} (h : n = spDown s) (habove : c.stackTop.toNat < n) (hn : n ≤ 256) :
      MayRaise c s (.push r) ⟨.stackUnderflow, n⟩
  | callUnderflow {r : Byte} {n : Int} (h : n = spDown s) (habove : c.stackTop.toNat < n) (hn : n ≤ 256) :
      MayRaise c s (.call r) ⟨.stackUnderflow, n⟩
  | popUnderflow {r : Byte} {n : Int} (h : ∃ k : Fin numRegs, k.val = r.toNat ∧ n = popSp s k)
      (habove : c.stackTop.toNat < n) (hn : n ≤ 256) : MayRaise c s (.pop r) ⟨.stackUnderflow, n⟩
  | retUnderflow {n : Int} (h : n = s.sp.toNat + 1) (habove : c.stackTop.toNat < n) (hn : n ≤ 256) :
      MayRaise c s .ret ⟨.stackUnderflow, n⟩
  | returnAddress {r : Byte} {n : Int} (h : n = s.pc.toNat + 2) (hn : 256 ≤ n) : MayRaise c s (.call r) ⟨.outOfBounds, n⟩

/-- Everything an instruction can do from a state: take one of its faults, or end in its one successful way. -/
inductive Effect (c : Config) (s : State) : Instr → State → Prop
  | fault {i : Instr} {e : Raise} (h : MayRaise c s i e) : Effect c s i (takeFault (some (c.opc.of i.mnemonic)) e s)
  | halt : Effect c s .halt { s.advance 1 with engine := .halted }
  | loadImmediate {r v : Byte} (h : r.toNat < 8) : Effect c s (.loadImmediate r v) ((s.setReg ⟨r.toNat, h⟩ v).advance 3)
  | printReg {r : Byte} (h : r.toNat < 8) : Effect c s (.printReg r) ((s.emit (s.reg ⟨r.toNat, h⟩)).advance 2)
  | compare {a b : Byte} (ha : a.toNat < 8) (hb : b.toNat < 8) : Effect c s (.compare a b)
      (State.advance { s with fl := compareFlag (s.reg ⟨a.toNat, ha⟩) (s.reg ⟨b.toNat, hb⟩) } 3)
  | add {a b : Byte} (ha : a.toNat < 8) (hb : b.toNat < 8) : Effect c s (.add a b)
      ((s.setReg ⟨a.toNat, ha⟩ (aluSum (s.reg ⟨a.toNat, ha⟩) (s.reg ⟨b.toNat, hb⟩))).advance 3)
  | multiply {a b : Byte} (ha : a.toNat < 8) (hb : b.toNat < 8) : Effect c s (.multiply a b)
      ((s.setReg ⟨a.toNat, ha⟩ (aluProduct (s.reg ⟨a.toNat, ha⟩) (s.reg ⟨b.toNat, hb⟩))).advance 3)
  | jump {r : Byte} (h : r.toNat < 8) : Effect c s (.jump r) (s.goto (s.reg ⟨r.toNat, h⟩))
  | jumpIfEqualTaken {r : Byte} (hf : s.fl = .equal) (h : r.toNat < 8) :
      Effect c s (.jumpIfEqual r) (s.goto (s.reg ⟨r.toNat, h⟩))
  | jumpIfEqualNot {r : Byte} (hf : s.fl ≠ .equal) : Effect c s (.jumpIfEqual r) (s.advance 2)
  | jumpIfNotEqualTaken {r : Byte} (hf : s.fl ≠ .equal) (h : r.toNat < 8) :
      Effect c s (.jumpIfNotEqual r) (s.goto (s.reg ⟨r.toNat, h⟩))
  | jumpIfNotEqualNot {r : Byte} (hf : s.fl = .equal) : Effect c s (.jumpIfNotEqual r) (s.advance 2)
  | push {r : Byte} (h0 : 0 ≤ spDown s) (h1 : spDown s ≤ c.stackTop.toNat) (h : r.toNat < 8) :
      Effect c s (.push r) ((stored s (spDown s) (regUnderSp s ⟨r.toNat, h⟩)).advance 2)
  | pop {r : Byte} (h : r.toNat < 8) (h1 : popSp s ⟨r.toNat, h⟩ ≤ c.stackTop.toNat) : Effect c s (.pop r)
      (((s.setReg ⟨r.toNat, h⟩ (s.mem.peek s.sp.toNat)).setSp (BitVec.ofInt 8 (popSp s ⟨r.toNat, h⟩))).advance 2)
  | call {r : Byte} (h0 : 0 ≤ spDown s) (h1 : spDown s ≤ c.stackTop.toNat) (hp : s.pc.toNat + 2 < 256) (h : r.toNat < 8) :
      Effect c s (.call r)
        ((stored s (spDown s) (BitVec.ofNat 8 (s.pc.toNat + 2))).goto (regUnderSp s ⟨r.toNat, h⟩))
  | ret (h1 : (s.sp.toNat : Int) + 1 ≤ c.stackTop.toNat) :
      Effect c s .ret ((s.goto (s.mem.peek s.sp.toNat)).setSp (BitVec.ofInt 8 (s.sp.toNat + 1)))

theorem spDown_bounds : -1 ≤ spDown s ∧ spDown s ≤ 254 := by
  have := s.sp.isLt
  unfold spDown
  omega

theorem popSp_bounds (k : Fin numRegs) : 1 ≤ popSp s k ∧ popSp s k ≤ 256 := by
  have := s.sp.isLt
  have := (s.mem.peek s.sp.toNat).isLt
  unfold popSp
  split <;> omega

theorem aluStepIn_effect {m : Mnemonic} {kind : AluKind} {a b : Byte} {i : Instr} (hm : i.mnemonic = m)
    (hops : i.registerOperands = [a, b])
    (hok : ∀ t, alu kind a b s = .ok t → Effect c s i (t.advance 3)) : Effect c s i (aluStepIn c m kind a b s) := by
  subst hm
  rcases aluStepIn_cases c s i.mnemonic kind a b with ⟨ha, h⟩ | ⟨-, hb, h⟩ | ⟨t, ht, h⟩ <;> rw [h]
  · exact .fault (.badIndex (by simp [hops]) ha)
  · exact .fault (.badIndex (by simp [hops]) hb)
  · exact hok t ht

/-- Whatever an instruction does is one of the cases of `Effect`. -/
theorem effectIn_effect (i : Instr) : Effect c s i (effectIn c i s) := by
  have hd := spDown_bounds s
  cases i with
  | halt => exact .halt
  | loadImmediate r v =>
    rcases loadImmediateIn_cases c s r v with ⟨hr, h⟩ | ⟨hr, h⟩ <;> simp only [effectIn, h]
    · exact .fault (i := .loadImmediate r v) (.badIndex (by simp [Instr.registerOperands]) hr)
    · exact .loadImmediate hr
  | printReg r =>
    rcases printRegIn_cases c s r with ⟨hr, h⟩ | ⟨hr, h⟩ <;> simp only [effectIn, h]
    · exact .fault (i := .printReg r) (.badIndex (by simp [Instr.registerOperands]) hr)
    · exact .printReg hr
  | compare a b =>
    refine aluStepIn_effect c s rfl rfl fun t ht => ?_
    rcases alu_cases s .compare a b with ⟨-, h⟩ | ⟨-, -, h⟩ | ⟨ha, hb, h⟩ <;> rw [h] at ht <;> cases ht
    exact .compare ha hb
  | add a b =>
    refine aluStepIn_effect c s rfl rfl fun t ht => ?_
    rcases alu_cases s .add a b with ⟨-, h⟩ | ⟨-, -, h⟩ | ⟨ha, hb, h⟩ <;> rw [h] at ht <;> cases ht
    exact .add ha hb
  | multiply a b =>
    refine aluStepIn_effect c s rfl rfl fun t ht => ?_
    rcases alu_cases s .multiply a b with ⟨-, h⟩ | ⟨-, -, h⟩ | ⟨ha, hb, h⟩ <;> rw [h] at ht <;> cases ht
    exact .multiply ha hb
  | jump r =>
    rcases jumpIn_cases c s r with ⟨hr, h⟩ | ⟨hr, h⟩ <;> simp only [effectIn, h]
    · exact .fault (i := .jump r) (.badIndex (by simp [Instr.registerOperands]) hr)
    · exact .jump hr
  | jumpIfEqual r =>
    rcases jumpWhenIn_cases c s .jumpIfEqual s.fl.isEqual r with ⟨hf, h⟩ | ⟨-, hr, h⟩ | ⟨hf, hr, h⟩ <;>
      simp only [effectIn, jumpIfEqualIn, h]
    · exact .jumpIfEqualNot (by simpa [Flag.isEqual] using hf)
    · exact .fault (i := .jumpIfEqual r) (.badIndex (by simp [Instr.registerOperands]) hr)
    · exact .jumpIfEqualTaken (by simpa [Flag.isEqual] using hf) hr
  | jumpIfNotEqual r =>
    rcases jumpWhenIn_cases c s .jumpIfNotEqual (!s.fl.isEqual) r with ⟨hf, h⟩ | ⟨-, hr, h⟩ | ⟨hf, hr, h⟩ <;>
      simp only [effectIn, jumpIfNotEqualIn, h]
    · exact .jumpIfNotEqualNot (by simpa [Flag.isEqual] using hf)
    · exact .fault (i := .jumpIfNotEqual r) (.badIndex (by simp [Instr.registerOperands]) hr)
    · exact .jumpIfNotEqualTaken (by simpa [Flag.isEqual] using hf) hr
  | push r =>
    rcases pushIn_cases c s r with ⟨hn, h⟩ | ⟨hn, h⟩ | ⟨-, -, hr, h⟩ | ⟨h0, h1, hr, h⟩ <;> simp only [effectIn, h]
    · have hneg : spDown s = -1 := by omega
      rw [hneg]
      exact .fault (i := .push r) (.pushOverflow hneg)
    · exact .fault (i := .push r) (.pushUnderflow rfl hn (by omega))
    · exact .fault (i := .push r) (.badIndex (by simp [Instr.registerOperands]) hr)
    · exact .push h0 h1 hr
  | pop r =>
    rcases popIn_cases c s r with ⟨hr, h⟩ | ⟨hr, hn, h⟩ | ⟨hr, hn, h⟩ <;> simp only [effectIn, h]
    · exact .fault (i := .pop r) (.badIndex (by simp [Instr.registerOperands]) hr)
    · exact .fault (i := .pop r) (.popUnderflow ⟨_, rfl, rfl⟩ hn (popSp_bounds s _).2)
    · exact .pop hr hn
  | call r =>
    rcases callIn_cases c s r with ⟨hn, h⟩ | ⟨hn, h⟩ | ⟨-, -, hp, h⟩ | ⟨-, -, -, hr, h⟩ | ⟨h0, h1, hp, hr, h⟩ <;>
      simp only [effectIn, h]
    · have hneg : spDown s = -1 := by omega
      rw [hneg]
      exact .fault (i := .call r) (.callOverflow hneg)
    · exact .fault (i := .call r) (.callUnderflow rfl hn (by omega))
    · exact .fault (i := .call r) (.returnAddress (by simp) (by omega))
    · exact .fault (i := .call r) (.badIndex (by simp [Instr.registerOperands]) hr)
    · exact .call h0 h1 hp hr
  | ret =>
    have hsp := s.sp.isLt
    rcases retIn_cases c s with ⟨hn, h⟩ | ⟨hn, h⟩ <;> simp only [effectIn, h]
    · exact .fault (i := .ret) (.retUnderflow rfl hn (by omega))
    · exact .ret hn

end Sys2Proof.Machine
end

