-- ==== Sys2Proof/Laws/Cycle.lean ====
section
/-! SUPPORT. Everything the fetch of an instruction can answer, and that it answers what the decoder reads from the bytes at the
program counter (40_engine_cycle.md R111 to R113). -/

namespace Sys2Proof.Machine

variable {c : Config} {s : State}

/-- Everything steps 1 to 3 of a cycle can answer. -/
inductive Fetch (c : Config) (s : State) : Except FetchFault Instr → Prop
  | opcodePastEnd (hp : 256 ≤ s.pc.toNat) : Fetch c s (.error ⟨none, .outOfBounds, s.pc.toNat⟩)
  | unsupported (hp : s.pc.toNat < 256) (hl : c.opc.lookup (s.mem.peek s.pc.toNat) = none) :
      Fetch c s (.error ⟨some (s.mem.peek s.pc.toNat), .unsupportedOpcode, (s.mem.peek s.pc.toNat).toNat⟩)
  | operandPastEnd {m : Mnemonic} (hp : s.pc.toNat < 256) (hl : c.opc.lookup (s.mem.peek s.pc.toNat) = some m)
      (hend : 256 ≤ s.pc.toNat + m.operandCount) :
      Fetch c s (.error ⟨some (s.mem.peek s.pc.toNat), .outOfBounds, 256⟩)
  | instruction {i : Instr} (hp : s.pc.toNat + i.length ≤ 256)
      (hl : c.opc.lookup (s.mem.peek s.pc.toNat) = some i.mnemonic)
      (hops : i.operands = (List.range i.mnemonic.operandCount).map fun k => s.mem.peek (s.pc.toNat + (k + 1))) :
      Fetch c s (.ok i)

/-- Everything the operand fetch can answer, for a count of at most 2 (R113). -/
theorem fetchOperands_cases (s : State) {n : Nat} (hn : n ≤ 2) (hp : s.pc.toNat < 256) :
    (256 ≤ s.pc.toNat + n ∧ fetchOperands s n = .error ⟨.outOfBounds, 256⟩) ∨
    (s.pc.toNat + n < 256 ∧
      fetchOperands s n = .ok (if 1 ≤ n then s.mem.peek (s.pc.toNat + 1) else 0,
        if n = 2 then s.mem.peek (s.pc.toNat + 2) else 0)) := by
  have hcases : n = 0 ∨ n = 1 ∨ n = 2 := by omega
  rcases hcases with rfl | rfl | rfl
  · exact .inr ⟨by omega, rfl⟩
  · rcases Nat.lt_or_ge (s.pc.toNat + 1) 256 with h1 | h1
    · exact .inr ⟨h1, by simp [fetchOperands, memRead_of_lt h1]⟩
    · have he : s.pc.toNat + 1 = 256 := by omega
      exact .inl ⟨h1, by simp [fetchOperands, he, memRead_of_ge]⟩
  · rcases Nat.lt_or_ge (s.pc.toNat + 1) 256 with h1 | h1
    · rcases Nat.lt_or_ge (s.pc.toNat + 2) 256 with h2 | h2
      · exact .inr ⟨h2, by simp [fetchOperands, memRead_of_lt h1, memRead_of_lt h2]⟩
      · have he : s.pc.toNat + 2 = 256 := by omega
        exact .inl ⟨h2, by simp [fetchOperands, memRead_of_lt h1, he, memRead_of_ge]⟩
    · have he : s.pc.toNat + 1 = 256 := by omega
      exact .inl ⟨by omega, by simp [fetchOperands, he, memRead_of_ge]⟩

/-- Whatever the fetch answers is one of the cases of `Fetch`. -/
theorem fetchIn_fetch (c : Config) (s : State) : Fetch c s (fetchIn c s) := by
  rcases Nat.lt_or_ge s.pc.toNat 256 with hp | hp
  · cases hl : c.opc.lookup (s.mem.peek s.pc.toNat) with
    | none =>
      have h : fetchIn c s = .error ⟨some (s.mem.peek s.pc.toNat), .unsupportedOpcode, (s.mem.peek s.pc.toNat).toNat⟩ := by
        simp [fetchIn, fetchOpcode, memRead_of_lt hp, Except.mapError, bind, Except.bind, decodeOpcode, hl]
      rw [h]
      exact .unsupported hp hl
    | some m =>
      rcases fetchOperands_cases s m.operandCount_le hp with ⟨hend, hf⟩ | ⟨hend, hf⟩
      · have h : fetchIn c s = .error ⟨some (s.mem.peek s.pc.toNat), .outOfBounds, 256⟩ := by
          simp [fetchIn, fetchOpcode, memRead_of_lt hp, Except.mapError, bind, Except.bind, decodeOpcode, hl, hf]
        rw [h]
        exact .operandPastEnd hp hl hend
      · have h : fetchIn c s = .ok (m.assemble (if 1 ≤ m.operandCount then s.mem.peek (s.pc.toNat + 1) else 0)
            (if m.operandCount = 2 then s.mem.peek (s.pc.toNat + 2) else 0)) := by
          simp [fetchIn, fetchOpcode, memRead_of_lt hp, Except.mapError, bind, Except.bind, decodeOpcode, hl, hf]
        rw [h]
        refine .instruction ?_ ?_ ?_
        · rw [Instr.length, Mnemonic.assemble_mnemonic]
          omega
        · rw [Mnemonic.assemble_mnemonic, hl]
        · rw [Mnemonic.assemble_operands, Mnemonic.assemble_mnemonic]
          cases m <;> rfl
  · have h : fetchIn c s = .error ⟨none, .outOfBounds, s.pc.toNat⟩ := by
      simp [fetchIn, fetchOpcode, memRead_of_ge hp, Except.mapError, bind, Except.bind]
    rw [h]
    exact .opcodePastEnd hp

/-- The bytes of an instruction that begin at `pc` are the operands that the fetch reads: what the decoder reads at the program
counter, the fetch answers. -/
theorem fetchIn_of_decode {i : Instr} {rest : List Byte}
    (h : decode c.opc (s.mem.bytesFrom s.pc.toNat 3) = .ok (i, rest)) : fetchIn c s = .ok i := by
  rcases Nat.lt_or_ge s.pc.toNat 256 with hp | hp
  · obtain ⟨n, hn, hbytes⟩ : ∃ n, (n = min 2 (255 - s.pc.toNat)) ∧ min 3 (memSize - s.pc.toNat) = n + 1 :=
      ⟨_, rfl, by simp only [memSize]; omega⟩
    have hlist : s.mem.bytesFrom s.pc.toNat 3 =
        s.mem.peek s.pc.toNat :: (List.range n).map fun k => s.mem.peek (s.pc.toNat + (k + 1)) := by
      simp [Memory.bytesFrom, hbytes, List.range_succ_eq_map, Function.comp_def]
    rw [hlist, decode_cons] at h
    cases hl : c.opc.lookup (s.mem.peek s.pc.toNat) with
    | none => simp [hl] at h
    | some m =>
      have hn' : n = 0 ∨ n = 1 ∨ n = 2 := by omega
      have hf := fetchOperands_cases s m.operandCount_le hp
      simp only [hl] at h
      have hrun : ∀ ops, fetchOperands s m.operandCount = .ok ops → fetchIn c s = .ok (m.assemble ops.1 ops.2) := by
        intro ops ho
        simp [fetchIn, fetchOpcode, memRead_of_lt hp, Except.mapError, bind, Except.bind, decodeOpcode, hl, ho]
      have hcount : m.operandCount = 0 ∨ m.operandCount = 1 ∨ m.operandCount = 2 := by
        have := m.operandCount_le
        omega
      rcases hcount with hc | hc | hc <;> rcases hn' with rfl | rfl | rfl <;>
        simp [hc, List.range_succ] at h hf <;> obtain ⟨rfl, -⟩ := h
      · exact hrun _ (by rw [hc]; exact (hf.resolve_left (by omega)).2)
      · exact hrun _ (by rw [hc]; exact (hf.resolve_left (by omega)).2)
      · exact hrun _ (by rw [hc]; exact (hf.resolve_left (by omega)).2)
      · exact hrun _ (by rw [hc]; exact (hf.resolve_left (by omega)).2)
      · exact hrun _ (by rw [hc]; exact (hf.resolve_left (by omega)).2)
      · exact hrun _ (by rw [hc]; exact (hf.resolve_left (by omega)).2)
  · have hnil : s.mem.bytesFrom s.pc.toNat 3 = [] := by
      simp [Memory.bytesFrom, Nat.sub_eq_zero_of_le hp]
    simp [hnil, decode] at h

end Sys2Proof.Machine
end

