-- ==== Sys2Proof/Laws/PerInstr.lean ====
section
/-! SUPPORT. The per-instruction family EncodingShape: under every valid opcode map the encoding of an instruction begins with
its opcode, has the length that bits 7 to 6 of that opcode say, and bit 4 is the sets-PC attribute (30_encoding.md R80, R81,
R87). -/

namespace Sys2Proof.Laws.EncodingShape

/-- What the family says of an instruction. -/
def Statement (i : Instr) : Prop :=
  ∀ o : Opcodes, o.valid = true →
    (encode o i).head? = some (o.of i.mnemonic) ∧
    (encode o i).length = 1 + opcodeCount (o.of i.mnemonic) ∧
    (encode o i).length = i.length ∧
    opcodeSetsPc (o.of i.mnemonic) = i.mnemonic.setsPc

/-- The shape follows from the number of operands and the constraints of R85. -/
theorem statement_of (i : Instr) : Statement i := fun o h => by
  obtain ⟨hcount, hpc⟩ := Opcodes.bits_of h i.mnemonic
  have hlen : (encode o i).length = 1 + i.mnemonic.operandCount := by
    simp [encode, Instr.operands_length, Nat.add_comm]
  exact ⟨rfl, by rw [hlen, hcount], hlen, hpc⟩

theorem halt : Statement .halt := statement_of _
theorem loadImmediate (r v : Byte) : Statement (.loadImmediate r v) := statement_of _
theorem printReg (r : Byte) : Statement (.printReg r) := statement_of _
theorem compare (a b : Byte) : Statement (.compare a b) := statement_of _
theorem add (a b : Byte) : Statement (.add a b) := statement_of _
theorem multiply (a b : Byte) : Statement (.multiply a b) := statement_of _
theorem jump (r : Byte) : Statement (.jump r) := statement_of _
theorem jumpIfEqual (r : Byte) : Statement (.jumpIfEqual r) := statement_of _
theorem jumpIfNotEqual (r : Byte) : Statement (.jumpIfNotEqual r) := statement_of _
theorem push (r : Byte) : Statement (.push r) := statement_of _
theorem pop (r : Byte) : Statement (.pop r) := statement_of _
theorem call (r : Byte) : Statement (.call r) := statement_of _
theorem ret : Statement .ret := statement_of _

end Sys2Proof.Laws.EncodingShape
end

