-- ==== Sys2Proof/Tests/Slice0.lean ====
section
/-! SUPPORT. Tests of the model: expected results are vectors of 95_test_vectors.md or hand calculation from the rules. The
`witness_…` theorems show, statement by statement of Obligations.lean, states and operands that meet its hypotheses. -/

namespace Sys2Proof.Tests

open Sys2Proof.Machine

/-! ### Helpers -/

/-- A Running state with `x = [3, 9, 0xAB, 0x0C, 250, 10, 0, sp]`. -/
def st (pc : PcWord) (sp : Byte) (mem : Memory := []) (fl : Flag := .unset) : State :=
  { State.reset with x := #v[3, 9, 0xAB, 0x0C, 250, 10, 0, sp], pc := pc, mem := mem, fl := fl }

/-- The outcome is a next state of which `p` holds. -/
def ends (o : Host.Outcome State Fault Refusal) (p : State → Bool) : Bool :=
  match o with
  | .next t => p t
  | .fault _ => false
  | .refused _ => false

/-- One step from `s` enters this fault and keeps everything else. -/
def faults (s : State) (kind : Fault) (opcode : Option Byte) (info : Int) : Bool :=
  ends (step s) fun t => t == { s with engine := .faulted, fault := some ⟨kind, s.pc, opcode, info⟩ }

/-! ### WellFormed: one ill-formed term for each register operand, which the check refuses (R83) -/

theorem test_wellFormed_accepts : (Instr.loadImmediate 7 255).wellFormed = true ∧ (Instr.compare 0 7).wellFormed = true ∧
    Instr.halt.wellFormed = true ∧ Instr.ret.wellFormed = true := by decide
theorem test_illFormed_loadImmediate : (Instr.loadImmediate 8 1).wellFormed = false := by decide
theorem test_illFormed_printReg : (Instr.printReg 255).wellFormed = false := by decide
theorem test_illFormed_compare : (Instr.compare 8 0).wellFormed = false ∧ (Instr.compare 0 8).wellFormed = false := by decide
theorem test_illFormed_add : (Instr.add 8 0).wellFormed = false ∧ (Instr.add 0 9).wellFormed = false := by decide
theorem test_illFormed_multiply : (Instr.multiply 10 0).wellFormed = false ∧ (Instr.multiply 0 11).wellFormed = false := by decide
theorem test_illFormed_jumps : (Instr.jump 8).wellFormed = false ∧ (Instr.jumpIfEqual 9).wellFormed = false ∧
    (Instr.jumpIfNotEqual 9).wellFormed = false := by decide
theorem test_illFormed_stack : (Instr.push 8).wellFormed = false ∧ (Instr.pop 8).wellFormed = false ∧
    (Instr.call 9).wellFormed = false := by decide

/-! ### Decode: every row of the table from its bits (B1); bit 0 is the lowest bit of the first byte -/

theorem test_decode_halt : decodeTableWord 8 0b00000001 = some .halt := by decide
theorem test_decode_ret : decodeTableWord 8 0b00010001 = some .ret := by decide
theorem test_decode_push : decodeTableWord 16 0b00000010_01000101 = some (.push 2) := by decide
theorem test_decode_pop : decodeTableWord 16 0b00000010_01000110 = some (.pop 2) := by decide
theorem test_decode_printReg : decodeTableWord 16 0b00000101_01000111 = some (.printReg 5) := by decide
theorem test_decode_call : decodeTableWord 16 0b00000001_01010000 = some (.call 1) := by decide
theorem test_decode_jump : decodeTableWord 16 0b00000011_01010100 = some (.jump 3) := by decide
theorem test_decode_jumpIfEqual : decodeTableWord 16 0b00000011_01010101 = some (.jumpIfEqual 3) := by decide
theorem test_decode_jumpIfNotEqual : decodeTableWord 16 0b00000011_01010110 = some (.jumpIfNotEqual 3) := by decide
theorem test_decode_loadImmediate : decodeTableWord 24 0b11111111_00000101_10000010 = some (.loadImmediate 5 255) := by decide
theorem test_decode_add : decodeTableWord 24 0b00000010_00000001_10100000 = some (.add 1 2) := by decide
theorem test_decode_multiply : decodeTableWord 24 0b00000010_00000001_10100010 = some (.multiply 1 2) := by decide
theorem test_decode_compare : decodeTableWord 24 0b00000010_00000001_10100111 = some (.compare 1 2) := by decide

/-- The illegal bytes of B1, each next to a legal one. -/
theorem test_decode_illegal :
    ∀ b ∈ ([0x00, 0x02, 0x10, 0x51, 0x57, 0x83, 0xA1, 0xC0, 0xFF] : List Byte),
      decode Opcodes.standard [b, 0, 0] = .error (.unsupportedOpcode b) := by decide
/-- Operand bytes that do not follow are missed by name; no byte at all is no instruction. -/
theorem test_decode_short : decode Opcodes.standard [0x47] = .error (.missingOperand 0x47) ∧
    decode Opcodes.standard [0x82, 9] = .error (.missingOperand 0x82) ∧ decode Opcodes.standard [] = .error .noByte := by decide
/-- The decode result of R88: count and sets-PC flag of one row for each pair of values. -/
theorem test_decodeResult : Opcodes.standard.decodeResult 0x01 = some (.halt, 0, false) ∧
    Opcodes.standard.decodeResult 0x11 = some (.ret, 0, true) ∧ Opcodes.standard.decodeResult 0x47 = some (.printReg, 1, false) ∧
    Opcodes.standard.decodeResult 0x56 = some (.jumpIfNotEqual, 1, true) ∧
    Opcodes.standard.decodeResult 0xA7 = some (.compare, 2, false) ∧ Opcodes.standard.decodeResult 0xC3 = none := by decide
/-- The constraints of R85 can fail: a doubled value, a wrong count, a wrong sets-PC bit. -/
theorem test_invalid_maps : ({ Opcodes.standard with multiply := 0xA0 } : Opcodes).valid = false ∧
    ({ Opcodes.standard with halt := 0x41 } : Opcodes).valid = false ∧
    ({ Opcodes.standard with call := 0x40 } : Opcodes).valid = false := by decide
/-- The stored word is what the very next step runs, also at another program counter. -/
theorem test_withFetchWord :
    ends (step (State.reset.withFetchWord 24 0x08_00_82)) (fun t => t.x[0] == 8 && t.pc == 3) = true ∧
    ends (step ((st 0x20 0xF4).withFetchWord 8 0x01)) (fun t => t.engine == .halted) = true := by decide

/-! ### One step of each instruction (B2 to B7) -/

/-- S1, and F7: HALT at 255 ends at 256 with no fault. -/
theorem test_halt :
    ends (step (st 0x0B 0xF4 [(0x0B, 0x01)])) (fun t => t.engine == .halted && t.pc == 0x0C) = true := by decide
theorem test_halt_last :
    ends (step (st 0xFF 0xF4 [(0xFF, 0x01)]))
      (fun t => t.engine == .halted && t.pc == 256 && t.fault == none) = true := by decide
/-- S3: the stack pointer is loaded without a stack check. -/
theorem test_loadImmediate :
    ends (step (st 3 0xF4 [(3, 0x82), (4, 7), (5, 0x20)]))
      (fun t => t == { st 6 0x20 [(3, 0x82), (4, 7), (5, 0x20)] with pc := 6 }) = true := by decide
/-- F6: all three bytes are fetched, then the register test. -/
theorem test_loadImmediate_bad :
    faults (st 0xFD 0xF4 [(0xFD, 0x82), (0xFE, 9)]) .invalidRegister (some 0x82) 9 = true := by decide
/-- S10: the stack pointer is printed as a register. -/
theorem test_printReg :
    ends (step (st 0 0xF4 [(0, 0x47), (1, 7)])) (fun t => t.out == [244] && t.pc == 2) = true := by decide
/-- S11. -/
theorem test_printReg_bad : faults (st 0 0xF4 [(0, 0x47), (1, 0xFF)]) .invalidRegister (some 0x47) 255 = true := by decide
/-- A2: 250 + 10 wraps to 4. -/
theorem test_add :
    ends (step (st 0 0xF4 [(0, 0xA0), (1, 4), (2, 5)]))
      (fun t => t.x[4] == 4 && t.x[5] == 10 && t.fl == .unset && t.pc == 3) = true := by decide
/-- A0 02 02: the same register twice (0xAB + 0xAB). -/
theorem test_add_same : ends (step (st 0 0xF4 [(0, 0xA0), (1, 2), (2, 2)])) (fun t => t.x[2] == 0x56) = true := by decide
/-- 250 * 9 = 2250 = 8 * 256 + 202. -/
theorem test_multiply :
    ends (step (st 0 0xF4 [(0, 0xA2), (1, 4), (2, 1)])) (fun t => t.x[4] == 202 && t.x[1] == 9) = true := by decide
/-- A2 0A 0B: the first operand is reported first. -/
theorem test_multiply_bad :
    faults (st 0 0xF4 [(0, 0xA2), (1, 10), (2, 11)]) .invalidRegister (some 0xA2) 10 = true := by decide
/-- 3 against 9 is less-than; 250 against 9 is greater-than, since bytes are unsigned. -/
theorem test_compare :
    ends (step (st 0 0xF4 [(0, 0xA7), (2, 1)] .greater)) (fun t => t.fl == .less && t.pc == 3) = true := by decide
theorem test_compare_unsigned :
    ends (step (st 0 0xF4 [(0, 0xA7), (1, 4), (2, 1)] .equal)) (fun t => t.fl == .greater) = true := by decide
/-- J1 and J5. -/
theorem test_jump : ends (step (st 0x14 0xF4 [(0x14, 0x54), (0x15, 3)])) (fun t => t.pc == 0x0C) = true := by decide
theorem test_jump_bad : faults (st 0 0xF4 [(0, 0x54), (1, 8)]) .invalidRegister (some 0x54) 8 = true := by decide
/-- J14 and J15: the operand is tested only when the jump is taken. -/
theorem test_jumpIfEqual_taken_bad :
    faults (st 0 0xF4 [(0, 0x55), (1, 9)] .equal) .invalidRegister (some 0x55) 9 = true := by decide
theorem test_jumpIfEqual_not_taken :
    ends (step (st 0 0xF4 [(0, 0x55), (1, 9)] .less)) (fun t => t.pc == 2 && t.fault == none) = true := by decide
/-- J13 (taken before any COMPARE) and J12. -/
theorem test_jumpIfNotEqual_taken : ends (step (st 0 0xF4 [(0, 0x56), (1, 3)])) (fun t => t.pc == 0x0C) = true := by decide
theorem test_jumpIfNotEqual_not_taken :
    ends (step (st 0x14 0xF4 [(0x14, 0x56), (0x15, 3)] .equal)) (fun t => t.pc == 0x16) = true := by decide
/-- K6: PUSH R7 stores the decremented stack pointer. -/
theorem test_push_sp :
    ends (step (st 0 0xF4 [(0, 0x45), (1, 7)]))
      (fun t => t.x[7] == 0xF3 && t.mem.peek 0xF3 == 0xF3 && t.pc == 2) = true := by decide
/-- K11: the stack test comes before the register test. -/
theorem test_push_overflow : faults (st 0 0 [(0, 0x45), (1, 8)]) .stackOverflow (some 0x45) (-1) = true := by decide
/-- K2. -/
theorem test_pop :
    ends (step (st 0 0xF3 [(0, 0x46), (1, 2), (0xF3, 0x0C)]))
      (fun t => t.x[2] == 0x0C && t.x[7] == 0xF4 && t.mem.peek 0xF3 == 0x0C && t.pc == 2) = true := by decide
/-- K8: POP R7 tests one more than the byte it loaded. -/
theorem test_pop_sp_underflow :
    faults (st 0 0x10 [(0, 0x46), (1, 7), (0x10, 0xF4)]) .stackUnderflow (some 0x46) 245 = true := by decide
/-- K15 and K19. -/
theorem test_call :
    ends (step (st 6 0xF4 [(6, 0x50), (7, 3)]))
      (fun t => t.x[7] == 0xF3 && t.mem.peek 0xF3 == 8 && t.pc == 0x0C) = true := by decide
theorem test_call_return_address : faults (st 0xFE 0xF4 [(0xFE, 0x50)]) .outOfBounds (some 0x50) 256 = true := by decide
/-- F8 and K17. -/
theorem test_ret :
    ends (step (st 0xFF 0xF3 [(0xF3, 0x10), (0xFF, 0x11)])) (fun t => t.pc == 0x10 && t.x[7] == 0xF4) = true := by decide
theorem test_ret_empty : faults (st 0 0xF4 [(0, 0x11)]) .stackUnderflow (some 0x11) 245 = true := by decide

/-! ### Fetch, formats, codes -/

/-- F2: decode comes before operand fetch. F4: the second operand fetch comes before the register test. F5. F9. -/
theorem test_fetch_undefined : faults (st 0xFF 0xF4 [(0xFF, 0xC3)]) .unsupportedOpcode (some 0xC3) 0xC3 = true := by decide
theorem test_fetch_operand :
    faults (st 0xFE 0xF4 [(0xFE, 0x82), (0xFF, 9)]) .outOfBounds (some 0x82) 256 = true := by decide
theorem test_fetch_opcode : faults (st 256 0xF4) .outOfBounds none 256 = true := by decide
theorem test_fetch_not_taken : faults (st 0xFF 0xF4 [(0xFF, 0x55)] .less) .outOfBounds (some 0x55) 256 = true := by decide
/-- The layout `00000LGE` of R27. -/
theorem test_flag_layout : Flag.less.toByte = 4 ∧ Flag.greater.toByte = 2 ∧ Flag.equal.toByte = 1 ∧ Flag.unset.toByte = 0 := by decide
/-- The codes of R28 and R220. -/
theorem test_codes : EngineState.running.code = 0 ∧ EngineState.halted.code = 1 ∧ EngineState.faulted.code = 2 ∧
    State.reset.faultCode = 0 ∧ Fault.outOfBounds.code = 1 ∧ Fault.stackUnderflow.code = 6 := by decide
/-- S7 and S8: the text of the output channel. -/
theorem test_outText : outText [72, 0, 255] = ['7', '2', '\n', '0', '\n', '2', '5', '5', '\n'] := by decide
/-- The examples of R89, and a faulting operand. -/
theorem test_assembly : (Instr.loadImmediate 0 8).assembly = "LOAD_IMMEDIATE R0, 8" ∧ Instr.halt.assembly = "HALT" ∧
    (Instr.printReg 255).assembly = "PRINT_REG R255" ∧ (Instr.jumpIfEqual 3).mnemonic.shortName = "JEQ" := by decide
/-- Storing the byte an unlisted address reads as removes the entry; the form stays canonical. -/
theorem test_memory_canonical : Memory.poke [(3, 7), (5, 1)] 3 0 = [(5, 1)] ∧ Memory.poke [(5, 1)] 3 7 = [(3, 7), (5, 1)] ∧
    Memory.wf [(3, 7), (5, 1)] = true ∧ Memory.wf [(5, 1), (3, 7)] = false ∧ Memory.wf [(3, 0)] = false ∧
    Memory.wf [(256, 1)] = false := by decide
/-- The elements of the stack, top first (R32). -/
theorem test_stackElements : stackElements Config.standard (st 0 0xF2 [(0xF2, 0x0C), (0xF3, 0x08)]) = [0x0C, 0x08] ∧
    stackEmpty Config.standard (st 0 0xF4) = true ∧ stackEmpty Config.standard (st 0 0xF2) = false := by decide

/-! ### Witnesses of the hypotheses, statement by statement -/

/-- The default map is valid, and so is another one. -/
theorem witness_EncodeThenDecodeGivesTheInstruction : Opcodes.standard.valid = true ∧
    ({ Opcodes.standard with add := 0xA2, multiply := 0xA0, halt := 0x2F } : Opcodes).valid = true := by decide
theorem witness_DecodedBytesAreTheEncoding :
    decode Opcodes.standard [0x82, 0x09, 0xFF, 0x01] = .ok (.loadImmediate 9 255, [0x01]) ∧
    decode Opcodes.standard [0x11] = .ok (.ret, []) := by decide
/-- Both sides of the equivalence occur. -/
theorem witness_OtherOpcodeBytesAreRefused : (∀ m ∈ Mnemonic.all, Opcodes.standard.of m ≠ 0xC0) ∧
    decode Opcodes.standard [0x01] ≠ .error (.unsupportedOpcode 0x01) := by decide
/-- A three-byte instruction in the middle and a one-byte instruction at 255. -/
theorem witness_StepRunsTheDecodedInstruction :
    (st 3 0xF4 [(3, 0x82), (4, 7), (5, 0x20)]).engine = .running ∧
    decode Opcodes.standard ((st 3 0xF4 [(3, 0x82), (4, 7), (5, 0x20)]).mem.bytesFrom (3 : PcWord).toNat 3) =
      .ok (.loadImmediate 7 0x20, []) ∧
    decode Opcodes.standard ((st 255 0xF4 [(255, 0x11)]).mem.bytesFrom (255 : PcWord).toNat 3) = .ok (.ret, []) := by decide
theorem witness_OpcodeFetchFaultsOnlyAt256 : (st 256 0xF4).engine = .running ∧ (st 256 0xF4).pc.toNat = 256 ∧
    (st 255 0xF4).pc.toNat ≤ 255 ∧ (st 0 0xF4).pc.toNat ≤ 255 := by decide
theorem witness_UndefinedOpcodeFaultsBeforeItsOperands : (st 255 0xF4 [(255, 0xC3)]).engine = .running ∧
    (st 255 0xF4 [(255, 0xC3)]).pc.toNat ≤ 255 ∧
    ∀ m ∈ Mnemonic.all, Opcodes.standard.of m ≠ (st 255 0xF4 [(255, 0xC3)]).mem.peek 255 := by decide
theorem witness_OperandFetchPast255Faults : (st 254 0xF4 [(254, 0x82)]).engine = .running ∧
    (st 254 0xF4 [(254, 0x82)]).mem.peek 254 = Opcodes.standard.of .loadImmediate ∧
    255 < 254 + Mnemonic.loadImmediate.operandCount ∧
    (st 255 0xF4 [(255, 0x55)] .less).mem.peek 255 = Opcodes.standard.of .jumpIfEqual ∧
    255 < 255 + Mnemonic.jumpIfEqual.operandCount := by decide
theorem witness_StoppedEngineKeepsItsState : ({ st 0 0xF4 with engine := .halted } : State).engine ≠ .running ∧
    ({ st 0 0xF4 with engine := .faulted } : State).engine ≠ .running := by decide
/-- HALT, a PRINT_REG and a JUMP that end without a fault. -/
theorem witness_OnlyHaltStopsWithoutFault :
    decode Opcodes.standard ((st 0 0xF4 [(0, 0x01)]).mem.bytesFrom 0 3) = .ok (.halt, [0, 0]) ∧
    ends (step (st 0 0xF4 [(0, 0x01)])) (fun t => t.engine ≠ .faulted) = true ∧
    decode Opcodes.standard ((st 0 0xF4 [(0, 0x47)]).mem.bytesFrom 0 3) = .ok (.printReg 0, [0]) ∧
    ends (step (st 0 0xF4 [(0, 0x47)])) (fun t => t.engine ≠ .faulted) = true ∧
    decode Opcodes.standard ((st 0 0xF4 [(0, 0x54)]).mem.bytesFrom 0 3) = .ok (.jump 0, [0]) ∧
    ends (step (st 0 0xF4 [(0, 0x54)])) (fun t => t.engine ≠ .faulted) = true := by decide
/-- The three ends of a cycle. -/
theorem witness_EngineTransitions : (st 0 0xF4).engine = .running ∧ (st 0 0xF4).fault = none ∧
    ends (step (st 255 0xF4 [(255, 0x01)])) (fun t => t.engine = .halted) = true ∧
    ends (step (st 0 0xF4)) (fun t => t.engine = .faulted) = true ∧
    ends (step (st 0 0xF4 [(0, 0x54)])) (fun t => t.engine = .running) = true := by decide
/-- A fault with no opcode and one with an opcode. -/
theorem witness_FaultsArePrecise : (st 256 0xF4).engine = .running ∧
    ends (step (st 256 0xF4)) (fun t => t.engine = .faulted) = true ∧
    ends (step (st 255 0xF4 [(255, 0x47)])) (fun t => t.engine = .faulted) = true := by decide
/-- Each fault that an instruction's own tests can raise. -/
theorem witness_WhichInstructionRaisesWhat :
    ends (exec (.call 0) (st 254 0xF4)) (fun t => t.faultCode == 1) = true ∧
    ends (exec (.add 0 8) (st 0 0xF4)) (fun t => t.faultCode == 2) = true ∧
    ends (exec (.push 0) (st 0 0)) (fun t => t.faultCode == 5) = true ∧
    ends (exec (.call 0) (st 0 0)) (fun t => t.faultCode == 5) = true ∧
    ends (exec (.push 0) (st 0 0xF6)) (fun t => t.faultCode == 6) = true ∧
    ends (exec (.call 0) (st 0 0xFF)) (fun t => t.faultCode == 6) = true ∧
    ends (exec (.pop 0) (st 0 0xFF)) (fun t => t.faultCode == 6) = true ∧
    ends (exec .ret (st 0 0xF4)) (fun t => t.faultCode == 6) = true := by decide
/-- Each branch, with the bytes of the instruction ending at 255 where its form allows it. -/
theorem witness_ProgramCounterUpdate :
    ends (exec .halt (st 255 0xF4)) (fun t => t.engine ≠ .faulted) = true ∧
    ends (exec (.loadImmediate 7 0) (st 253 0xF4)) (fun t => t.engine ≠ .faulted) = true ∧
    ends (exec (.printReg 7) (st 254 0xF4)) (fun t => t.engine ≠ .faulted) = true ∧
    ends (exec (.jump 0) (st 254 0xF4)) (fun t => t.engine ≠ .faulted) = true ∧
    ends (exec (.jumpIfEqual 0) (st 254 0xF4 [] .equal)) (fun t => t.engine ≠ .faulted) = true ∧
    ends (exec (.jumpIfEqual 255) (st 254 0xF4)) (fun t => t.engine ≠ .faulted) = true ∧
    ends (exec (.jumpIfNotEqual 0) (st 254 0xF4)) (fun t => t.engine ≠ .faulted) = true ∧
    ends (exec (.jumpIfNotEqual 255) (st 254 0xF4 [] .equal)) (fun t => t.engine ≠ .faulted) = true ∧
    ends (exec (.call 7) (st 253 0xF4)) (fun t => t.engine ≠ .faulted) = true ∧
    ends (exec .ret (st 255 0xF3)) (fun t => t.engine ≠ .faulted) = true := by decide
theorem witness_HaltStopsTheEngine : (st 255 0xF4).pc.toNat ≤ 255 := by decide
theorem witness_LoadImmediateWritesTheRegister : (7 : Byte).toNat < 8 ∧ (st 253 0xF4).pc.toNat ≤ 253 ∧ 8 ≤ (8 : Byte).toNat ∧
    (st 254 0xF4 [(254, 0x82)]).engine = .running ∧ (st 254 0xF4 [(254, 0x82)]).mem.peek (254 : PcWord).toNat = 0x82 ∧
    (st 255 0xF4 [(255, 0x82)]).mem.peek (255 : PcWord).toNat = 0x82 := by decide
theorem witness_PrintRegEmitsTheRegister : (7 : Byte).toNat < 8 ∧ (st 254 0xF4).pc.toNat ≤ 254 ∧ 8 ≤ (8 : Byte).toNat := by decide
/-- Both operands good, the first bad, only the second bad; the same numbers serve COMPARE, ADD and MULTIPLY. -/
theorem witness_AluWritesOnlyItsDestination : (0 : Byte).toNat < 8 ∧ (7 : Byte).toNat < 8 ∧ 8 ≤ (8 : Byte).toNat ∧
    ends (exec (.add 0 7) (st 0 0xF4)) (fun t => t.engine ≠ .faulted) = true := by decide
/-- Operands that name registers, and each of the three outcomes. -/
theorem witness_CompareSetsOneOutcome : (st 253 0xF4).pc.toNat ≤ 253 ∧
    ends (exec (.compare 0 0) (st 0 0xF4)) (fun t => t.fl == .equal) = true ∧
    ends (exec (.compare 6 7) (st 0 0xF4)) (fun t => t.fl == .less) = true ∧
    ends (exec (.compare 7 6) (st 0 0xF4)) (fun t => t.fl == .greater) = true ∧
    8 ≤ (8 : Byte).toNat ∧ (7 : Byte).toNat < 8 := by decide
theorem witness_AddWrapsModulo256 : (0 : Byte).toNat < 8 ∧ (7 : Byte).toNat < 8 ∧ (st 253 0xF4).pc.toNat ≤ 253 ∧
    8 ≤ (8 : Byte).toNat ∧ (aluSum 255 1, aluSum 255 255, aluSum 100 27) = (0, 254, 127) := by decide
theorem witness_MultiplyKeepsTheLowByte : (0 : Byte).toNat < 8 ∧ (7 : Byte).toNat < 8 ∧ (st 253 0xF4).pc.toNat ≤ 253 ∧
    8 ≤ (8 : Byte).toNat ∧ (aluProduct 16 16, aluProduct 255 255, aluProduct 200 3) = (0, 1, 88) := by decide
theorem witness_JumpGoesToTheRegister : (7 : Byte).toNat < 8 ∧ 8 ≤ (8 : Byte).toNat := by decide
/-- Taken and good, not taken with an operand that names no register, taken and bad. -/
theorem witness_JumpIfEqualIsTakenOnEqual : (st 254 0xF4 [] .equal).fl = .equal ∧ (st 254 0xF4 [] .less).fl ≠ .equal ∧
    (st 254 0xF4).pc.toNat ≤ 254 ∧ (7 : Byte).toNat < 8 ∧ 8 ≤ (8 : Byte).toNat := by decide
theorem witness_JumpIfNotEqualIsTakenOnNotEqual : (st 254 0xF4 [] .equal).fl = .equal ∧ (st 254 0xF4).fl ≠ .equal ∧
    (st 254 0xF4).pc.toNat ≤ 254 ∧ (7 : Byte).toNat < 8 ∧ 8 ≤ (8 : Byte).toNat := by decide
/-- The stack pointers at which the tests of PUSH change: 0; 1 and 0xF5 accepted; 0xF6 rejected. -/
theorem witness_PushStoresBelowTheStackPointer : (st 0 0).sp.toNat = 0 ∧ 0xF4 + 1 < (st 0 0xF6).sp.toNat ∧
    0 < (st 0 1).sp.toNat ∧ (st 0 0xF5).sp.toNat ≤ 0xF4 + 1 ∧ (st 254 1).pc.toNat ≤ 254 ∧
    ends (exec (.push 7) (st 0 1)) (fun t => t.engine ≠ .faulted && t.sp == 0) = true ∧
    ends (exec (.push 0) (st 0 0xF5)) (fun t => t.engine ≠ .faulted && t.mem.peek 0xF4 == 3) = true := by decide
/-- The stack pointers at which the tests of POP change (0xF3 accepted, 0xF4 rejected), and the loaded bytes of POP R7. -/
theorem witness_PopLoadsTheTopOfStack : (0 : Byte).toNat < 8 ∧ (0 : Byte) ≠ 7 ∧ 8 ≤ (8 : Byte).toNat ∧
    0xF4 ≤ (st 0 0xF4).sp.toNat ∧ (st 0 0xF3).sp.toNat < 0xF4 ∧ (st 254 0xF3).pc.toNat ≤ 254 ∧
    0xF4 ≤ ((st 0 0x10 [(0x10, 0xF4)]).mem.peek (0x10 : Byte).toNat).toNat ∧
    ((st 0 0x10 [(0x10, 0xF3)]).mem.peek (0x10 : Byte).toNat).toNat < 0xF4 := by decide
/-- Each test of CALL at its boundary: stack pointer 0, 0xF6, 1 and 0xF5; `pc` 254 and 253; a bad register. -/
theorem witness_CallPushesTheReturnAddress : (st 0 0).sp.toNat = 0 ∧ 0xF4 + 1 < (st 0 0xF6).sp.toNat ∧
    0 < (st 254 1).sp.toNat ∧ (st 254 0xF5).sp.toNat ≤ 0xF4 + 1 ∧ 254 ≤ (st 254 1).pc.toNat ∧ (st 253 1).pc.toNat < 254 ∧
    8 ≤ (8 : Byte).toNat ∧
    ends (exec (.call 7) (st 253 0xF5)) (fun t => t.engine ≠ .faulted && t.mem.peek 0xF4 == 255 && t.pc == 0xF4) = true := by decide
theorem witness_ReturnPopsTheProgramCounter : 0xF4 ≤ (st 0 0xF4).sp.toNat ∧ (st 0 0xF3).sp.toNat < 0xF4 := by decide
theorem witness_PushThenPopRestores : (7 : Byte).toNat < 8 ∧ 0 < (st 0 1).sp.toNat ∧ (st 0 1).sp.toNat ≤ 0xF4 ∧
    0 < (st 0 0xF4).sp.toNat ∧ (st 0 0xF4).sp.toNat ≤ 0xF4 := by decide
theorem witness_CallThenReturnResumes : (7 : Byte).toNat < 8 ∧ 0 < (st 253 0xF4).sp.toNat ∧ (st 253 0xF4).sp.toNat ≤ 0xF4 ∧
    (st 253 0xF4).pc.toNat < 254 := by decide
theorem witness_PushedByteIsFetched : (0 : Byte).toNat < 8 ∧ 0 < (st 0 0xF5).sp.toNat ∧ (st 0 0xF5).sp.toNat ≤ 0xF4 + 1 ∧
    ((0xF4 : PcWord).toNat : Int) = spDown (st 0 0xF5) ∧ ((0 : PcWord).toNat : Int) = spDown (st 0 1) := by decide
theorem witness_ConditionalJumpsAreComplements : (0 : Byte).toNat < 8 ∧ (7 : Byte).toNat < 8 := by decide
/-- The last address inside memory and the first outside it. -/
theorem witness_MemoryAccessContract : 255 ≤ 255 ∧ 256 ≤ 256 ∧ memRead (st 0 0 [(255, 7)]) 255 = .ok 7 ∧
    memWrite (st 0 0) 256 1 = .error ⟨.outOfBounds, 256⟩ := by decide
theorem witness_RegisterFileContract : (7 : Byte).toNat < 8 ∧ 8 ≤ (8 : Byte).toNat ∧
    regGet (st 0 0xF4) 8 = .error ⟨.invalidRegister, 8⟩ := by decide
/-- An instruction that is no COMPARE, one that is no conditional jump, each with a next state. -/
theorem witness_FlagsAreWrittenByCompareAndReadByJumps : (∀ a b, Instr.add 0 1 ≠ .compare a b) ∧
    (∀ r, Instr.compare 0 1 ≠ .jumpIfEqual r) ∧ (∀ r, Instr.compare 0 1 ≠ .jumpIfNotEqual r) ∧
    (∃ t, exec (.add 0 1) (st 0 0xF4) = .next t) ∧ ∃ t, exec (.compare 0 1) (st 0 0xF4) = .next t :=
  ⟨nofun, nofun, nofun, ⟨_, rfl⟩, ⟨_, rfl⟩⟩
/-- Something emitted, nothing emitted by another instruction, nothing emitted with a bad operand. -/
theorem witness_OutputGrowsOnlyByPrintReg : (7 : Byte).toNat < 8 ∧ 8 ≤ (8 : Byte).toNat ∧ (∀ r, Instr.halt ≠ .printReg r) ∧
    ends (exec (.printReg 1) { st 0 0xF4 with out := [5] }) (fun t => t.out == [5, 9]) = true :=
  ⟨by decide, by decide, nofun, by decide⟩
/-- A JUMP (neither storing nor loading), a PUSH that stores, a POP under an equal byte. -/
theorem witness_OnlyStackInstructionsReachMemory : (∀ r, Instr.jump 0 ≠ .push r) ∧ (∀ r, Instr.jump 0 ≠ .call r) ∧
    (∀ r, Instr.jump 0 ≠ .pop r) ∧ Instr.jump 0 ≠ .ret ∧
    ends (exec (.push 1) (st 0 0xF4)) (fun t => t.mem.peek (spDown (st 0 0xF4)).toNat == 9) = true ∧
    Memory.peek [(0xF3, 8), (0xF5, 1)] (st 0 0xF3 [(0xF3, 8)]).sp.toNat =
      (st 0 0xF3 [(0xF3, 8)]).mem.peek (st 0 0xF3 [(0xF3, 8)]).sp.toNat :=
  ⟨nofun, nofun, nofun, nofun, by decide, by decide⟩
/-- A register that changed, for each arm that allows one. -/
theorem witness_RegisterWrites :
    ends (exec (.loadImmediate 7 1) (st 0 0xF4)) (fun t => t.reg 7 ≠ (st 0 0xF4).reg 7) = true ∧
    ends (exec (.add 0 1) (st 0 0xF4)) (fun t => t.reg 0 ≠ (st 0 0xF4).reg 0) = true ∧
    ends (exec (.multiply 0 1) (st 0 0xF4)) (fun t => t.reg 0 ≠ (st 0 0xF4).reg 0) = true ∧
    ends (exec (.pop 0) (st 0 0xF3)) (fun t => t.reg 0 ≠ (st 0 0xF3).reg 0 && t.reg 7 ≠ (st 0 0xF3).reg 7) = true ∧
    ends (exec (.push 0) (st 0 0xF3)) (fun t => t.reg 7 ≠ (st 0 0xF3).reg 7) = true ∧
    ends (exec (.call 0) (st 0 0xF3)) (fun t => t.reg 7 ≠ (st 0 0xF3).reg 7) = true ∧
    ends (exec .ret (st 0 0xF3)) (fun t => t.reg 7 ≠ (st 0 0xF3).reg 7) = true := by decide
/-- The empty image and a full one. -/
theorem witness_LoadPlacesTheImageFromZero : ([] : List Byte).length ≤ 256 ∧ (List.replicate 256 (1 : Byte)).length ≤ 256 :=
  ⟨by decide, List.length_replicate.le⟩
theorem witness_TooLongImageIsTheLoadersError : 256 < (List.replicate 257 (1 : Byte)).length :=
  Nat.lt_of_lt_of_eq (by decide) List.length_replicate.symm
/-- A run of one cycle that ends (P6), one of a stopped engine, and one without an answer. -/
theorem witness_RunEndsAtTheFirstStop :
    ((runIn Config.standard 1 (st 0 0xF4 [(0, 0x11)])).map fun t => t.engine) = some .faulted ∧
    runIn Config.standard 0 { st 0 0xF4 with engine := .halted } = some { st 0 0xF4 with engine := .halted } ∧
    runIn Config.standard 0 (st 0 0xF4) = none := by decide
theorem witness_EmptyStackUnderflowsForEveryStackTop : (6 : Byte).toNat < 8 ∧ (6 : Byte) ≠ 7 := by decide
/-- Two states that meet the invariant: Running at the last program counter, and Faulted. -/
theorem witness_StepKeepsTheInvariant :
    (st 256 0xF4 [(0xF3, 8)]).Inv Config.standard ∧
    State.Inv Config.standard
      { st 0 0 [(0, 0x45)] with engine := .faulted, fault := some ⟨.stackOverflow, 0, some 0x45, -1⟩ } :=
  ⟨⟨by decide, by decide, by decide, nofun⟩,
    ⟨by decide, by decide, by decide, fun r hr => by cases hr; exact ⟨⟨by decide, by decide, rfl⟩, rfl⟩⟩⟩
/-- The conditions of each stack instruction at their boundaries, and those of one other instruction. -/
theorem witness_NoFaultUnderTheConditions :
    (st 0 1).mayRun Config.standard (.push 7) ∧ (st 0 0xF4).mayRun Config.standard (.push 0) ∧
    (st 253 0xF4).mayRun Config.standard (.call 7) ∧ (st 0 0xF3).mayRun Config.standard (.pop 0) ∧
    (st 0 0xF3).mayRun Config.standard .ret ∧ (st 0 0xF4).mayRun Config.standard (.add 0 7) ∧
    (st 253 0xF4 [(253, 0x50), (254, 7)]).engine = .running ∧
    decode Config.standard.opc ((st 253 0xF4 [(253, 0x50), (254, 7)]).mem.bytesFrom 253 3) = .ok (.call 7, [0]) :=
  ⟨⟨by decide, by decide, by decide⟩, ⟨by decide, by decide, by decide⟩, ⟨by decide, by decide, by decide, by decide⟩,
    ⟨by decide, by decide, by decide⟩, ⟨by decide, by decide⟩, ⟨by decide, trivial⟩, by decide, by decide⟩

/-- A configuration that is not the default one: another `STACK_TOP` and another valid map. -/
def otherConfig : Config where
  stackTop := 0x80
  opc := { Opcodes.standard with add := 0xA2, multiply := 0xA0, halt := 0x2F }
  opcValid := by decide

/-- A map of a configuration that is not the default, and for each constraint a map that breaks it alone. -/
theorem witness_ConfigurationsHaveExactlyTheValidMaps : otherConfig.opc.of .add = 0xA2 ∧
    ({ Opcodes.standard with multiply := 0xA0 } : Opcodes).of .add = ({ Opcodes.standard with multiply := 0xA0 } : Opcodes).of .multiply ∧
    opcodeCount (({ Opcodes.standard with halt := 0x41 } : Opcodes).of .halt) ≠ Mnemonic.halt.operandCount ∧
    (({ Opcodes.standard with call := 0x40 } : Opcodes).of .call).getLsbD 4 = false := by decide
/-- A three-byte instruction that ends at 255 and a one-byte one at 255, in the other configuration. -/
theorem witness_EveryConfigurationRunsItsEncodedInstruction : (st 253 0x80 [(253, 0xA2), (255, 1)]).engine = .running ∧
    (st 253 0x80 [(253, 0xA2), (255, 1)]).mem.bytesFrom 253 3 = encode otherConfig.opc (.add 0 1) ++ [] ∧
    (st 255 0x80 [(255, 0x2F)]).mem.bytesFrom 255 3 = encode otherConfig.opc .halt ++ [] := by decide

end Sys2Proof.Tests
end

section
/-! The output channel does not reach the rest of the machine (10_state.md R30): every operation commutes with replacing what
`out` holds, and so does every instruction, but for the byte that PRINT_REG appends. -/

namespace Sys2Proof.Machine

section Commutation

/-- The state with the content of the output channel replaced. -/
abbrev State.withOut (s : State) (os : List Byte) : State := { s with out := os }

variable (c : Config) (s : State) (os : List Byte)

/-- The two dispatchers agree: `exec` is the effect in the default configuration (40_engine_cycle.md R114). -/
theorem exec_eq_next_effectIn (i : Instr) : exec i s = .next (effectIn Config.standard i s) := by
  cases i <;> rfl

/-! ### The shared operations -/

theorem memWrite_withOut (a : Nat) (v : Byte) :
    memWrite (s.withOut os) a v = (·.withOut os) <$> memWrite s a v := by
  rcases Nat.lt_or_ge a 256 with h | h
  · rw [memWrite_of_lt v h, memWrite_of_lt v h]
    rfl
  · rw [memWrite_of_ge v h, memWrite_of_ge v h]
    rfl

theorem regSet_withOut (r v : Byte) : regSet (s.withOut os) r v = (·.withOut os) <$> regSet s r v := by
  simp only [regSet, map_bind]; rfl

theorem storeAtSp_withOut (n : Int) (v : Byte) :
    storeAtSp (s.withOut os) n v = (·.withOut os) <$> storeAtSp s n v := by
  simp only [storeAtSp, memWrite_withOut, map_bind, bind_map_left]; rfl

theorem jumpToReg_withOut (r : Byte) : jumpToReg r (s.withOut os) = (·.withOut os) <$> jumpToReg r s := by
  simp only [jumpToReg, map_bind]; rfl

theorem alu_withOut (kind : AluKind) (a b : Byte) :
    alu kind a b (s.withOut os) = (·.withOut os) <$> alu kind a b s := by
  simp only [alu, map_bind]
  cases kind with
  | add => simp only [regSet_withOut]; rfl
  | multiply => simp only [regSet_withOut]; rfl
  | compare => rfl

/-- Tests that commute with replacing the output end their cycle in states that differ in the output alone. -/
theorem settle_withOut {opcode : Option Byte} {x y : Except Raise State} {s : State} {os : List Byte}
    (h : y = (·.withOut os) <$> x) : settle opcode (s.withOut os) y = (settle opcode s x).withOut os := by
  subst h
  cases x <;> rfl

/-! ### PRINT_REG: its two ends, each under its own condition (41_system_and_data.md R132) -/

theorem printRegIn_of_ge {r : Byte} (h : 8 ≤ r.toNat) :
    printRegIn c r s = takeFault (some c.opc.printReg) (badIndex r) s :=
  ((printRegIn_cases c s r).resolve_right fun ⟨hlt, _⟩ => by omega).2

theorem printRegIn_of_lt {r : Byte} (h : r.toNat < 8) :
    printRegIn c r s = (s.emit (s.reg ⟨r.toNat, h⟩)).advance 2 :=
  ((printRegIn_cases c s r).resolve_left fun ⟨hge, _⟩ => by omega).2

/-- PRINT_REG of a register that exists appends the register to whatever the output holds (41_system_and_data.md R132). -/
theorem printRegIn_withOut {r : Byte} (h : r.toNat < 8) :
    printRegIn c r (s.withOut os) = (printRegIn c r s).withOut (os ++ [s.reg ⟨r.toNat, h⟩]) := by
  rw [printRegIn_of_lt c _ h, printRegIn_of_lt c _ h]; rfl

/-! ### The instructions that emit nothing -/

theorem loadImmediateIn_withOut (r v : Byte) :
    loadImmediateIn c r v (s.withOut os) = (loadImmediateIn c r v s).withOut os :=
  settle_withOut (by simp only [regSet_withOut, map_bind, bind_map_left]; rfl)

theorem aluStepIn_withOut (m : Mnemonic) (kind : AluKind) (a b : Byte) :
    aluStepIn c m kind a b (s.withOut os) = (aluStepIn c m kind a b s).withOut os :=
  settle_withOut (by simp only [alu_withOut, map_bind, bind_map_left]; rfl)

theorem jumpWhenIn_withOut (m : Mnemonic) (taken : Bool) (r : Byte) :
    jumpWhenIn c m taken r (s.withOut os) = (jumpWhenIn c m taken r s).withOut os :=
  settle_withOut (by
    cases taken with
    | true => exact jumpToReg_withOut s os r
    | false => rfl)

theorem pushIn_withOut (r : Byte) : pushIn c r (s.withOut os) = (pushIn c r s).withOut os :=
  settle_withOut (by simp only [storeAtSp_withOut, map_bind, bind_map_left]; rfl)

theorem popIn_withOut (r : Byte) : popIn c r (s.withOut os) = (popIn c r s).withOut os :=
  settle_withOut (by simp only [map_bind]; rfl)

theorem callIn_withOut (r : Byte) : callIn c r (s.withOut os) = (callIn c r s).withOut os :=
  settle_withOut (by simp only [storeAtSp_withOut, map_bind, bind_map_left]; rfl)

theorem retIn_withOut : retIn c (s.withOut os) = (retIn c s).withOut os :=
  settle_withOut (by simp only [map_bind]; rfl)

/-- An instruction that emits nothing, which is any but a PRINT_REG of a register that exists, commutes with replacing the
output. -/
theorem effectIn_withOut_of_silent (i : Instr) (hsilent : ∀ r, i = .printReg r → 8 ≤ r.toNat) :
    effectIn c i (s.withOut os) = (effectIn c i s).withOut os := by
  cases i with
  | halt => rfl
  | loadImmediate r v => exact loadImmediateIn_withOut c s os r v
  | printReg r =>
    have hr := hsilent r rfl
    simp only [effectIn, printRegIn_of_ge _ _ hr]; rfl
  | compare a b => exact aluStepIn_withOut c s os .compare .compare a b
  | add a b => exact aluStepIn_withOut c s os .add .add a b
  | multiply a b => exact aluStepIn_withOut c s os .multiply .multiply a b
  | jump r => exact settle_withOut (jumpToReg_withOut s os r)
  | jumpIfEqual r => exact jumpWhenIn_withOut c s os .jumpIfEqual s.fl.isEqual r
  | jumpIfNotEqual r => exact jumpWhenIn_withOut c s os .jumpIfNotEqual (!s.fl.isEqual) r
  | push r => exact pushIn_withOut c s os r
  | pop r => exact popIn_withOut c s os r
  | call r => exact callIn_withOut c s os r
  | ret => exact retIn_withOut c s os

end Commutation

/-- Settles O36: an instruction either emits nothing and commutes with replacing the output, or is a PRINT_REG that appends
its register. -/
theorem outputGrowsOnlyByPrintReg : Obligations.OutputGrowsOnlyByPrintReg := by
  refine ⟨rfl, fun i s => ?_⟩
  by_cases hprint : ∃ r, i = .printReg r ∧ r.toNat < 8
  · obtain ⟨r, rfl, hr⟩ := hprint
    refine ⟨printRegIn Config.standard r s, [s.reg ⟨r.toNat, hr⟩], fun o => ?_, fun h => absurd rfl (h r), ?_, ?_⟩
    · rw [exec_eq_next_effectIn]
      exact congrArg _ (printRegIn_withOut _ s o hr)
    · rintro r' - ⟨⟩
      rfl
    · rintro r' hge ⟨⟩
      omega
  · have hsilent : ∀ r, i = .printReg r → 8 ≤ r.toNat := fun r hi =>
      Nat.le_of_not_lt fun hlt => hprint ⟨r, hi, hlt⟩
    refine ⟨effectIn Config.standard i s, [], fun o => ?_, fun _ => rfl, fun r hr hi => ?_, fun _ _ _ => rfl⟩
    · rw [exec_eq_next_effectIn, List.append_nil]
      exact congrArg _ (effectIn_withOut_of_silent _ s o i hsilent)
    · exact absurd ⟨r, hi, hr⟩ hprint

end Sys2Proof.Machine
end

section
/-! The Memory contract (20_memory.md R51, R52). -/

namespace Sys2Proof.Machine

/-- Settles O33: an access is in bounds exactly below 256, and a write in bounds is `Memory.poke`, which changes one cell. -/
theorem memoryAccessContract : Obligations.MemoryAccessContract := by
  intro s addr v
  refine ⟨fun hin => ?readInside, fun hout => ?readOutside, fun hin => ?writeInside, fun hout => ?writeOutside⟩
  case readInside => exact memRead_of_lt (Nat.lt_succ_of_le hin)
  case readOutside => exact memRead_of_ge hout
  case writeInside =>
    exact ⟨s.mem.poke addr v, memWrite_of_lt v (Nat.lt_succ_of_le hin), Memory.peek_poke_same s.mem addr v,
      fun _ hother => Memory.peek_poke_other s.mem v hother.symm⟩
  case writeOutside => exact memWrite_of_ge v hout

end Sys2Proof.Machine
end

section
/-! What a cycle that does not fault leaves unchanged (40_engine_cycle.md R121). -/

namespace Sys2Proof.Machine

/-- A cycle whose bytes at the program counter decode executes the decoded instruction (40_engine_cycle.md R114, R117). -/
theorem step_eq_next_effectIn {s : State} {i : Instr} {rest : List Byte} (hrun : s.engine = .running)
    (hdec : decode Opcodes.standard (s.mem.bytesFrom s.pc.toNat 3) = .ok (i, rest)) :
    step s = .next (effectIn Config.standard i s) := by
  have hfetch : fetchIn Config.standard s = .ok i := fetchIn_of_decode hdec
  simp only [step, hrun, hfetch, exec_eq_next_effectIn]

/-- Only HALT and fault entry write the engine state or the fault record (10_state.md R28, R29). -/
theorem Effect.keepsStatus {c : Config} {s t : State} {i : Instr} (h : Effect c s i t) (hi : i ≠ .halt)
    (hok : t.engine ≠ .faulted) : KeepsStatus s t := by
  cases h with
  | fault _ => exact absurd rfl hok
  | halt => exact absurd rfl hi
  | _ => exact ⟨rfl, rfl⟩

/-- An instruction that is no PRINT_REG commutes with replacing the output by what it holds, so it keeps it (10_state.md
R30). -/
theorem effectIn_out_of_ne_printReg (c : Config) (s : State) {i : Instr} (hi : ∀ r, i ≠ .printReg r) :
    (effectIn c i s).out = s.out := by
  have hcomm : effectIn c i s = (effectIn c i s).withOut s.out :=
    effectIn_withOut_of_silent c s s.out i fun r h => absurd h (hi r)
  rw [hcomm]

/-- Settles O10: a decoded cycle is the effect of its instruction, and of the effects that are no fault only HALT's writes
the engine state. -/
theorem onlyHaltStopsWithoutFault : Obligations.OnlyHaltStopsWithoutFault := by
  intro s t i rest hrun hdec hstep hok
  obtain rfl : effectIn Config.standard i s = t := by
    simpa only [step_eq_next_effectIn hrun hdec, Host.Outcome.next.injEq] using hstep
  have hkeeps (hi : i ≠ .halt) : KeepsStatus s (effectIn Config.standard i s) :=
    (effectIn_effect Config.standard s i).keepsStatus hi hok
  refine ⟨fun hi => ?notHalt, fun hhalted => ?halted⟩
  case notHalt =>
    obtain ⟨hengine, hfault⟩ := hkeeps hi
    exact ⟨hengine.trans hrun, hfault, effectIn_out_of_ne_printReg _ s⟩
  case halted =>
    by_contra hi
    obtain ⟨hengine, -⟩ := hkeeps hi
    exact absurd (hhalted.symm.trans (hengine.trans hrun)) (by decide)

end Sys2Proof.Machine
end

section
/-! The ALU's writes (42_alu.md R150). -/

namespace Sys2Proof.Machine

variable {s t : State} {a b : Byte}

/-! ### The ALU under each outcome of its two index tests -/

theorem alu_of_ge_left (kind : AluKind) (ha : 8 ≤ a.toNat) : alu kind a b s = .error (badIndex a) := by
  obtain ⟨-, h⟩ | ⟨hlt, -⟩ | ⟨hlt, -⟩ := alu_cases s kind a b
  · exact h
  · omega
  · omega

theorem alu_of_ge_right (kind : AluKind) (ha : a.toNat < 8) (hb : 8 ≤ b.toNat) :
    alu kind a b s = .error (badIndex b) := by
  obtain ⟨hge, -⟩ | ⟨-, -, h⟩ | ⟨-, hlt, -⟩ := alu_cases s kind a b
  · omega
  · exact h
  · omega

/-- The state a kind makes of its two register operands (R152, R153). -/
def AluKind.result (kind : AluKind) (s : State) (i j : Fin numRegs) : State :=
  match kind with
  | .add => s.setReg i (aluSum (s.reg i) (s.reg j))
  | .multiply => s.setReg i (aluProduct (s.reg i) (s.reg j))
  | .compare => { s with fl := compareFlag (s.reg i) (s.reg j) }

theorem alu_of_lt (kind : AluKind) (ha : a.toNat < 8) (hb : b.toNat < 8) :
    alu kind a b s = .ok (kind.result s ⟨a.toNat, ha⟩ ⟨b.toNat, hb⟩) := by
  obtain ⟨hge, -⟩ | ⟨-, hge, -⟩ | ⟨_, _, h⟩ := alu_cases s kind a b
  · omega
  · omega
  · exact h

/-! ### From the ALU call to the instruction -/

/-- An ALU instruction whose call answers a state advances that state by 3. -/
theorem aluStepIn_of_alu_ok (c : Config) (m : Mnemonic) {kind : AluKind} (h : alu kind a b s = .ok t) :
    aluStepIn c m kind a b s = t.advance 3 := by
  simp only [aluStepIn, h, ok_bind, settle_ok]

/-- A write of one register keeps the other registers (10_state.md R20). -/
theorem State.setReg_keepsRegsExcept (s : State) (k : Fin numRegs) (v : Byte) :
    KeepsRegsExcept [k] s (s.setReg k v) := by
  intro j hj
  have hne : k ≠ j := fun hkj => hj (List.mem_singleton.2 hkj.symm)
  rw [State.reg_setReg, if_neg hne]

/-- An ALU call that writes register `k` changes the register array only, there only `k`, and its instruction adds the
advance. -/
theorem alu_writes_register {kind : AluKind} {m : Mnemonic} {i : Instr} {k : Fin numRegs} {v : Byte}
    (hexec : exec i s = .next (aluStepIn Config.standard m kind a b s)) (halu : alu kind a b s = .ok (s.setReg k v)) :
    ∃ u, alu kind a b s = .ok { s with x := u } ∧ KeepsRegsExcept [k] s { s with x := u } ∧
      exec i s = .next { s with x := u, pc := s.pc + 3 } := by
  refine ⟨s.x.set k v, halu, s.setReg_keepsRegsExcept k v, ?_⟩
  rw [hexec, aluStepIn_of_alu_ok _ m halu]
  rfl

/-- Settles O18: the two index tests in their order, then each kind's one write and the advance of its instruction. -/
theorem aluWritesOnlyItsDestination : Obligations.AluWritesOnlyItsDestination := by
  intro a b s
  refine ⟨fun ha kind => alu_of_ge_left kind ha, fun ha hb kind => alu_of_ge_right kind ha hb,
    fun ha hb => ⟨?add, ?multiply, ?compare⟩⟩
  case add => exact alu_writes_register (m := .add) rfl (alu_of_lt .add ha hb)
  case multiply => exact alu_writes_register (m := .multiply) rfl (alu_of_lt .multiply ha hb)
  case compare =>
    have halu := alu_of_lt (s := s) .compare ha hb
    exact ⟨_, halu, congrArg Host.Outcome.next (aluStepIn_of_alu_ok Config.standard .compare halu)⟩

end Sys2Proof.Machine
end

section
/-! The load of an image (70_reset_and_hazards.md R262): a sequence of MemWrites that all stay inside memory stores the bytes
of the image at rising addresses, and touches nothing else. -/

namespace Sys2Proof.Machine

theorem Memory.pokeBytes_cons {a : Nat} (m : Memory) (b : Byte) (bytes : List Byte) (ha : a < 256) :
    m.pokeBytes a (b :: bytes) = (m.poke a b).pokeBytes (a + 1) bytes := by
  rw [Memory.pokeBytes, if_pos ha]

/-- Stored bytes leave the addresses below the first and beyond the last of them as they were. -/
theorem Memory.peek_pokeBytes_outside (m : Memory) {a k : Nat} (bytes : List Byte) (hfit : a + bytes.length ≤ 256)
    (hk : k < a ∨ a + bytes.length ≤ k) : (m.pokeBytes a bytes).peek k = m.peek k := by
  induction bytes generalizing m a with
  | nil => rfl
  | cons b bytes ih =>
    rw [List.length_cons] at hfit hk
    rw [Memory.pokeBytes_cons m b bytes (by omega), ih (m.poke a b) (by omega) (by omega)]
    exact Memory.peek_poke_other m b (by omega)

/-- Byte `k` of the stored bytes is read back at the `k`-th address from the first. -/
theorem Memory.peek_pokeBytes_inside (m : Memory) {a k : Nat} (bytes : List Byte) (hfit : a + bytes.length ≤ 256)
    (hk : k < bytes.length) : (m.pokeBytes a bytes).peek (a + k) = bytes[k] := by
  induction bytes generalizing m a k with
  | nil => exact absurd hk (Nat.not_lt_zero k)
  | cons b bytes ih =>
    rw [List.length_cons] at hfit hk
    rw [Memory.pokeBytes_cons m b bytes (by omega)]
    cases k with
    | zero => exact (Memory.peek_pokeBytes_outside _ bytes (by omega) (by omega)).trans (Memory.peek_poke_same m a b)
    | succ k =>
      have hrest := ih (m.poke a b) (a := a + 1) (k := k) (by omega) (by omega)
      rwa [Nat.add_right_comm, Nat.add_assoc] at hrest

/-- Bytes that fit are loaded without a raise, and the load changes the memory only. -/
theorem loadFrom_of_fits (s : State) {a : Nat} (bytes : List Byte) (hfit : a + bytes.length ≤ 256) :
    loadFrom s a bytes = .ok { s with mem := s.mem.pokeBytes a bytes } := by
  induction bytes generalizing s a with
  | nil => rfl
  | cons b bytes ih =>
    rw [List.length_cons] at hfit
    have ha : a < 256 := by omega
    rw [loadFrom, memWrite_of_lt b ha, ok_bind, ih _ (by omega), Memory.pokeBytes_cons s.mem b bytes ha]

/-- Settles O41: the load is the storing of the image's bytes from address 0 into the zero-initialised memory. -/
theorem loadPlacesTheImageFromZero : Obligations.LoadPlacesTheImageFromZero := by
  intro c s image hlen
  have hfit : 0 + image.length ≤ 256 := by omega
  refine ⟨Memory.pokeBytes [] 0 image, ?loaded, fun k hk => ?inside, fun a ha => ?beyond⟩
  case loaded => exact loadFrom_of_fits (hostReset c s) image hfit
  case inside => simpa only [Nat.zero_add] using Memory.peek_pokeBytes_inside [] image hfit hk
  case beyond => exact (Memory.peek_pokeBytes_outside [] image hfit (by omega)).trans (Memory.peek_nil a)

end Sys2Proof.Machine
end

section
/-! Decode and encode agree (30_encoding.md R80 to R88): one equivalence says what the decoder answers, and both directions of
the round trip are its two halves. -/

namespace Sys2Proof

/-- The decoder answers an instruction exactly when the first byte selects its mnemonic and its operand bytes follow (R82,
R88). -/
theorem decode_cons_eq_ok_iff {o : Opcodes} {b : Byte} {tail rest : List Byte} {i : Instr} :
    decode o (b :: tail) = .ok (i, rest) ↔ o.lookup b = some i.mnemonic ∧ tail = i.operands ++ rest := by
  constructor
  · intro h
    rw [decode_cons] at h
    split at h
    · cases h
    · rename_i m hlookup
      split at h <;> cases h <;>
      · rw [Mnemonic.assemble_mnemonic, Mnemonic.assemble_operands, ‹m.operandCount = _›]
        exact ⟨hlookup, rfl⟩
  · rintro ⟨hlookup, rfl⟩
    rw [decode_cons, hlookup]
    cases i <;> rfl

/-- Settles O2: a valid map looks every opcode up, and the operand bytes follow it. -/
theorem encodeThenDecodeGivesTheInstruction : Obligations.EncodeThenDecodeGivesTheInstruction :=
  fun _ hvalid i _ => decode_cons_eq_ok_iff.2 ⟨Opcodes.lookup_of hvalid i.mnemonic, rfl⟩

/-- Settles O3: the first byte is the opcode of the mnemonic it selects, and the rest are the operands. -/
theorem decodedBytesAreTheEncoding : Obligations.DecodedBytesAreTheEncoding := by
  intro o bytes i rest h
  cases bytes with
  | nil => cases h
  | cons b tail =>
    obtain ⟨hlookup, rfl⟩ := decode_cons_eq_ok_iff.1 h
    rw [encode, Opcodes.of_lookup hlookup, List.cons_append]

/-- A byte that selects a mnemonic is not refused by name, whatever follows it. -/
theorem decode_ne_unsupported {o : Opcodes} {b : Byte} {m : Mnemonic} (rest : List Byte) (h : o.lookup b = some m) :
    decode o (b :: rest) ≠ .error (.unsupportedOpcode b) := by
  rw [decode_cons, h]
  cases m <;> rcases rest with _ | ⟨op1, _ | ⟨op2, rest⟩⟩ <;> exact nofun

/-- Settles O4: the refusal by name is the lookup's `none`. -/
theorem otherOpcodeBytesAreRefused : Obligations.OtherOpcodeBytesAreRefused := by
  intro o b rest
  rw [← Opcodes.lookup_eq_none]
  refine ⟨fun h => ?_, decode_unsupported rest⟩
  cases hlookup : o.lookup b with
  | none => rfl
  | some m => exact absurd h (decode_ne_unsupported rest hlookup)

/-- Settles O1: each word is the encoding of its instruction in the default map. -/
theorem tableWordsDecode : Obligations.TableWordsDecode := by
  have hround (i : Instr) : decode Opcodes.standard (encode Opcodes.standard i) = .ok (i, []) := by
    simpa only [List.append_nil] using encodeThenDecodeGivesTheInstruction _ Opcodes.standard_valid i []
  exact ⟨hround .halt, hround (.loadImmediate 3 200), hround (.printReg 5), hround (.compare 1 2), hround (.add 1 2),
    hround (.multiply 1 2), hround (.jump 4), hround (.jumpIfEqual 4), hround (.jumpIfNotEqual 4), hround (.push 6),
    hround (.pop 6), hround (.call 6), hround .ret⟩

/-- The mnemonics with the sets-PC attribute, as R81 lists them. -/
theorem Mnemonic.setsPc_eq_true_iff (m : Mnemonic) :
    m.setsPc = true ↔ m = .jump ∨ m = .jumpIfEqual ∨ m = .jumpIfNotEqual ∨ m = .call ∨ m = .ret := by
  cases m <;> decide

/-- Settles O49: a configuration can be built with a map exactly when the map is valid, which is the three constraints. -/
theorem configurationsHaveExactlyTheValidMaps : Obligations.ConfigurationsHaveExactlyTheValidMaps := by
  refine ⟨fun o => ?_, rfl⟩
  have hconfig : (∃ c : Config, c.opc = o) ↔ o.valid = true :=
    ⟨fun ⟨c, hc⟩ => hc ▸ c.opcValid, fun hvalid => ⟨⟨0, o, hvalid⟩, rfl⟩⟩
  have hinjective : (∀ m n, o.of m = o.of n → m = n) ↔ ∀ m n, m ≠ n → o.of m ≠ o.of n :=
    forall₂_congr fun _ _ => not_imp_not.symm
  have hsetsPc : (∀ m, opcodeSetsPc (o.of m) = m.setsPc) ↔ ∀ m : Mnemonic, (o.of m).getLsbD 4 = true ↔
      m = .jump ∨ m = .jumpIfEqual ∨ m = .jumpIfNotEqual ∨ m = .call ∨ m = .ret :=
    forall_congr' fun m => by rw [← m.setsPc_eq_true_iff, Bool.eq_iff_iff, opcodeSetsPc]
  rw [hconfig, Opcodes.valid_iff, hinjective, hsetsPc]
  rfl

end Sys2Proof
end

section
/-! The cycle (40_engine_cycle.md R110 to R117): the two dispatchers are one machine, a stopped engine keeps its state, and a
cycle of a Running engine is either a fault of the fetch or the effect of the instruction fetched. -/

namespace Sys2Proof.Machine

variable {c : Config} {s t : State} {i : Instr}

/-! ### Steps of the fixed names and under a configuration -/

theorem stepIn_of_fetch_ok (hrun : s.engine = .running) (hfetch : fetchIn c s = .ok i) : stepIn c s = effectIn c i s := by
  simp only [stepIn, hrun, hfetch]

theorem stepIn_of_fetch_error {f : FetchFault} (hrun : s.engine = .running) (hfetch : fetchIn c s = .error f) :
    stepIn c s = takeFetchFault f s := by
  simp only [stepIn, hrun, hfetch]

/-- An engine that is not Running does nothing (R110). -/
theorem stepIn_of_stopped (hstop : s.engine ≠ .running) : stepIn c s = s := by
  cases hengine : s.engine with
  | running => exact absurd hengine hstop
  | halted | faulted => simp only [stepIn, hengine]

/-- The step of the fixed name is the step of the default configuration (log entry 26). -/
theorem step_eq_next_stepIn (s : State) : step s = .next (stepIn Config.standard s) := by
  cases hengine : s.engine with
  | running =>
    cases hfetch : fetchIn Config.standard s with
    | ok i => simp only [step, stepIn, hengine, hfetch, exec_eq_next_effectIn]
    | error f => simp only [step, stepIn, hengine, hfetch]
  | halted | faulted => simp only [step, stepIn, hengine]

theorem stepIn_of_step (h : step s = .next t) : stepIn Config.standard s = t := by
  simpa only [step_eq_next_stepIn, Host.Outcome.next.injEq] using h

theorem effect_of_exec (h : exec i s = .next t) : Effect Config.standard s i t := by
  rw [exec_eq_next_effectIn, Host.Outcome.next.injEq] at h
  exact h ▸ effectIn_effect Config.standard s i

/-- Everything a cycle of a Running engine can do. -/
theorem stepIn_cases (c : Config) (hrun : s.engine = .running) :
    (∃ f, Fetch c s (.error f) ∧ stepIn c s = takeFetchFault f s) ∨
    (∃ i, Fetch c s (.ok i) ∧ Effect c s i (stepIn c s)) := by
  have hfetch := fetchIn_fetch c s
  cases hr : fetchIn c s with
  | error f => exact .inl ⟨f, hr ▸ hfetch, stepIn_of_fetch_error hrun hr⟩
  | ok i => exact .inr ⟨i, hr ▸ hfetch, stepIn_of_fetch_ok hrun hr ▸ effectIn_effect c s i⟩

/-- Settles O45: the dispatchers agree arm by arm, and both steps fetch alike. -/
theorem fixedNamesAreTheStandardConfiguration : Obligations.FixedNamesAreTheStandardConfiguration :=
  ⟨fun i s => exec_eq_next_effectIn s i, step_eq_next_stepIn⟩

/-- Settles O5: the fetch answers what the decoder reads at the program counter. -/
theorem stepRunsTheDecodedInstruction : Obligations.StepRunsTheDecodedInstruction := by
  intro s i rest hrun hdecode
  rw [step_eq_next_effectIn hrun hdecode, exec_eq_next_effectIn]

/-- Settles O50: the encoding at the program counter decodes to its instruction, since the map of a configuration is valid. -/
theorem everyConfigurationRunsItsEncodedInstruction : Obligations.EveryConfigurationRunsItsEncodedInstruction := by
  intro c s i rest hrun hbytes
  have hdecode : decode c.opc (s.mem.bytesFrom s.pc.toNat 3) = .ok (i, rest) := by
    rw [hbytes]
    exact encodeThenDecodeGivesTheInstruction c.opc c.opcValid i rest
  exact stepIn_of_fetch_ok hrun (fetchIn_of_decode hdecode)

/-- Settles O9: a state that a step keeps is a fixed point of the iterated step. -/
theorem stoppedEngineKeepsItsState : Obligations.StoppedEngineKeepsItsState := by
  intro s hstop
  refine ⟨?_, fun c k => Function.iterate_fixed (stepIn_of_stopped hstop) k⟩
  rw [step_eq_next_stepIn, stepIn_of_stopped hstop]

/-! ### The three faults of the fetch, each under its own condition -/

/-- The opcode fetch beyond the end of memory (R111). -/
theorem fetchIn_of_pc_past_end (c : Config) (hp : 256 ≤ s.pc.toNat) :
    fetchIn c s = .error ⟨none, .outOfBounds, s.pc.toNat⟩ := by
  have hfetch := fetchIn_fetch c s
  generalize fetchIn c s = answer at hfetch ⊢
  cases hfetch with
  | opcodePastEnd _ => rfl
  | unsupported hlt _ | operandPastEnd hlt _ _ => omega
  | instruction hlen _ _ =>
    rw [Instr.length] at hlen
    omega

/-- A byte that is no opcode is refused before any operand is fetched (R112). -/
theorem fetchIn_of_lookup_none (hp : s.pc.toNat < 256) (hlookup : c.opc.lookup (s.mem.peek s.pc.toNat) = none) :
    fetchIn c s = .error ⟨some (s.mem.peek s.pc.toNat), .unsupportedOpcode, (s.mem.peek s.pc.toNat).toNat⟩ := by
  have hfetch := fetchIn_fetch c s
  generalize fetchIn c s = answer at hfetch ⊢
  cases hfetch with
  | opcodePastEnd hge => omega
  | unsupported _ _ => rfl
  | operandPastEnd _ hsome _ | instruction _ hsome _ => exact absurd (hlookup.symm.trans hsome) nofun

/-- Operands beyond the end of memory (R113). -/
theorem fetchIn_of_operands_past_end {m : Mnemonic} (hp : s.pc.toNat < 256)
    (hlookup : c.opc.lookup (s.mem.peek s.pc.toNat) = some m) (hend : 256 ≤ s.pc.toNat + m.operandCount) :
    fetchIn c s = .error ⟨some (s.mem.peek s.pc.toNat), .outOfBounds, 256⟩ := by
  have hfetch := fetchIn_fetch c s
  generalize fetchIn c s = answer at hfetch ⊢
  cases hfetch with
  | opcodePastEnd hge => omega
  | unsupported _ hnone => exact absurd (hnone.symm.trans hlookup) nofun
  | operandPastEnd _ _ _ => rfl
  | instruction hlen hsome _ =>
    obtain rfl : _ = m := Option.some.inj (hsome.symm.trans hlookup)
    rw [Instr.length] at hlen
    omega

/-- A step whose fetch faults enters that fault (60_exceptions.md R229). -/
theorem step_of_fetch_error {f : FetchFault} (hrun : s.engine = .running)
    (hfetch : fetchIn Config.standard s = .error f) : step s = .next (takeFault f.opcode f.cause s) := by
  rw [step_eq_next_stepIn, stepIn_of_fetch_error hrun hfetch, takeFetchFault]

/-- Settles O6: 256 is the first address outside memory. -/
theorem opcodeFetchFaultsOnlyAt256 : Obligations.OpcodeFetchFaultsOnlyAt256 := by
  refine ⟨fun s hrun hpc => ?past, fun s hpc => ?inside⟩
  case past =>
    refine ⟨_, _, step_of_fetch_error hrun (fetchIn_of_pc_past_end _ hpc.ge), rfl, rfl, rfl, ?_, hpc, rfl⟩
    exact congrArg Nat.cast hpc
  case inside => rw [fetchOpcode, memRead_of_lt (by omega), Except.mapError]

/-- Settles O7: the lookup refuses the byte, which ends the fetch. -/
theorem undefinedOpcodeFaultsBeforeItsOperands : Obligations.UndefinedOpcodeFaultsBeforeItsOperands := by
  intro s hrun hpc hopcode
  exact step_of_fetch_error hrun (fetchIn_of_lookup_none (by omega) (Opcodes.lookup_eq_none.2 hopcode))

/-- Settles O8: the opcode is found, and its last operand byte lies at 256 or beyond. -/
theorem operandFetchPast255Faults : Obligations.OperandFetchPast255Faults := by
  intro s m hrun hpc hopcode hend
  have hlookup : Config.standard.opc.lookup (s.mem.peek s.pc.toNat) = some m := hopcode ▸ Config.standard.lookup_of m
  rw [step_of_fetch_error hrun (fetchIn_of_operands_past_end (by omega) hlookup hend), hopcode]
  rfl

/-- Settles O40: the byte at the reset address is 0, which is no opcode of the default map. -/
theorem stepBeforeTheLoadFaults : Obligations.StepBeforeTheLoadFaults :=
  undefinedOpcodeFaultsBeforeItsOperands State.reset rfl (by decide) fun m => by cases m <;> decide

end Sys2Proof.Machine
end

section
/-! Faults and the engine state (60_exceptions.md R229, R238; 10_state.md R28): a cycle that ends Faulted is one fault entry
from its first state, with the opcode the cycle fetched. -/

namespace Sys2Proof.Machine

variable {c : Config} {s t : State} {i : Instr}

/-- The opcode that a cycle from this state fetches, absent when `pc` is outside memory (10_state.md R29). -/
def State.fetchedOpcode (s : State) : Option Byte :=
  if s.pc.toNat ≤ 255 then some (s.mem.peek s.pc.toNat) else none

theorem State.fetchedOpcode_of_lt (hp : s.pc.toNat < 256) : s.fetchedOpcode = some (s.mem.peek s.pc.toNat) :=
  if_pos (Nat.le_of_lt_succ hp)

/-- A fault of the fetch carries the opcode that was fetched. -/
theorem Fetch.opcode_eq {f : FetchFault} (h : Fetch c s (.error f)) : f.opcode = s.fetchedOpcode := by
  cases h with
  | opcodePastEnd hp => exact (if_neg (by omega)).symm
  | unsupported hp _ | operandPastEnd hp _ _ => exact (State.fetchedOpcode_of_lt hp).symm

/-- An instruction that was fetched lies whole in memory (R113). -/
theorem Fetch.fits (h : Fetch c s (.ok i)) : s.pc.toNat + i.length ≤ 256 := by
  cases h with
  | instruction hlen _ _ => exact hlen

/-- The opcode of an instruction that was fetched is the byte at `pc`. -/
theorem Fetch.opcode_at_pc (h : Fetch c s (.ok i)) : c.opc.of i.mnemonic = s.mem.peek s.pc.toNat := by
  cases h with
  | instruction _ hlookup _ => exact Opcodes.of_lookup hlookup

theorem Fetch.pc_lt (h : Fetch c s (.ok i)) : s.pc.toNat < 256 := by
  have hfits := h.fits
  rw [Instr.length] at hfits
  omega

/-- An effect that ends Faulted from an engine that is not is one of the instruction's own faults, taken from `s`. -/
theorem Effect.eq_takeFault (h : Effect c s i t) (hrun : s.engine = .running) (hfaulted : t.engine = .faulted) :
    ∃ e, MayRaise c s i e ∧ t = takeFault (some (c.opc.of i.mnemonic)) e s := by
  cases h with
  | fault hraise => exact ⟨_, hraise, rfl⟩
  | halt => cases hfaulted
  | _ => exact absurd (hrun.symm.trans hfaulted) nofun

/-- Only fault entry writes the fault record (10_state.md R29). -/
theorem Effect.fault_eq (h : Effect c s i t) (hok : t.engine ≠ .faulted) : t.fault = s.fault := by
  cases h with
  | fault _ => exact absurd rfl hok
  | _ => rfl

/-- From a Running engine only HALT ends Halted, and HALT does (R130). -/
theorem Effect.halted_iff (h : Effect c s i t) (hrun : s.engine = .running) : t.engine = .halted ↔ i = .halt := by
  constructor
  · intro hhalted
    by_contra hi
    obtain ⟨hengine, -⟩ := h.keepsStatus hi (by rw [hhalted]; exact nofun)
    exact absurd (hrun.symm.trans (hengine.symm.trans hhalted)) nofun
  · rintro rfl
    cases h with
    | fault hraise => cases hraise with
      | badIndex hmem _ => cases hmem
    | halt => rfl

/-- An effect from a state without a record ends Faulted exactly with one. -/
theorem Effect.faulted_iff (h : Effect c s i t) (hrun : s.engine = .running) (hnone : s.fault = none) :
    t.engine = .faulted ↔ t.fault ≠ none := by
  constructor
  · intro hfaulted
    obtain ⟨e, -, rfl⟩ := h.eq_takeFault hrun hfaulted
    exact nofun
  · intro hrecord
    by_contra hok
    exact hrecord ((h.fault_eq hok).trans hnone)

/-- Settles O12: the two ways a cycle ends Faulted are fault entries from its first state. -/
theorem faultsArePrecise : Obligations.FaultsArePrecise := by
  intro s t hrun hstep hfaulted
  obtain rfl := stepIn_of_step hstep
  rcases stepIn_cases Config.standard hrun with ⟨f, hfetch, hstepIn⟩ | ⟨i, hfetch, heffect⟩
  · exact ⟨_, hstepIn, rfl, hfetch.opcode_eq⟩
  · obtain ⟨e, -, hfault⟩ := heffect.eq_takeFault hrun hfaulted
    refine ⟨_, hfault, rfl, ?_⟩
    exact (congrArg some hfetch.opcode_at_pc).trans (State.fetchedOpcode_of_lt hfetch.pc_lt).symm

/-- HALT is the instruction of its opcode alone. -/
theorem Fetch.eq_halt_iff (h : Fetch c s (.ok i)) : i = .halt ↔ s.mem.peek s.pc.toNat = c.opc.halt := by
  rw [← h.opcode_at_pc]
  refine ⟨fun hi => by rw [hi]; rfl, fun hopcode => ?_⟩
  have hmnemonic : i.mnemonic = .halt := Opcodes.of_injective c.opcValid hopcode
  cases i <;> cases hmnemonic
  rfl

/-- The fetch of a HALT byte inside memory does not fault: HALT has no operand. -/
theorem Fetch.not_halt_of_error {f : FetchFault} (h : Fetch c s (.error f)) :
    ¬ (s.pc.toNat ≤ 255 ∧ s.mem.peek s.pc.toNat = c.opc.halt) := by
  rintro ⟨hpc, hhalt⟩
  have hlookup : c.opc.lookup (s.mem.peek s.pc.toNat) = some .halt := hhalt ▸ c.lookup_of .halt
  cases h with
  | opcodePastEnd hp => omega
  | unsupported _ hnone => exact absurd (hnone.symm.trans hlookup) nofun
  | operandPastEnd _ hsome hend =>
    obtain rfl : _ = Mnemonic.halt := Option.some.inj (hsome.symm.trans hlookup)
    exact absurd hend (by change ¬ 256 ≤ s.pc.toNat + 0; omega)

/-- Settles O11: a fault of the fetch ends Faulted on another byte than HALT, and an instruction ends Halted exactly when it
is HALT. -/
theorem engineTransitions : Obligations.EngineTransitions := by
  intro s hrun hnone
  refine ⟨_, step_eq_next_stepIn s, ?_⟩
  rcases stepIn_cases Config.standard hrun with ⟨f, hfetch, hstep⟩ | ⟨i, hfetch, heffect⟩
  · rw [hstep]
    exact ⟨iff_of_false nofun hfetch.not_halt_of_error, iff_of_true rfl nofun⟩
  · have hpc : s.pc.toNat ≤ 255 := Nat.le_of_lt_succ hfetch.pc_lt
    refine ⟨?_, heffect.faulted_iff hrun hnone⟩
    rw [heffect.halted_iff hrun, hfetch.eq_halt_iff, and_iff_right hpc]
    rfl

/-- A stack pointer whose decrement is below 0 is 0. -/
theorem sp_eq_zero_of_spDown_neg (h : spDown s = -1) : s.sp = 0 := by
  have hsp : s.sp.toNat = 0 := by rw [spDown] at h; omega
  exact BitVec.eq_of_toNat_eq hsp

/-- Settles O13: the list of `MayRaise`, read kind by kind. -/
theorem whichInstructionRaisesWhat : Obligations.WhichInstructionRaisesWhat := by
  intro i s t hrun hexec hfaulted
  obtain ⟨e, hraise, rfl⟩ := (effect_of_exec hexec).eq_takeFault hrun hfaulted
  refine ⟨_, rfl, ?_⟩
  cases hraise with
  | badIndex hmem hge => exact ⟨_, hmem, hge, rfl⟩
  | @pushOverflow r h => exact ⟨⟨r, .inl rfl⟩, sp_eq_zero_of_spDown_neg h, rfl⟩
  | @callOverflow r h => exact ⟨⟨r, .inr rfl⟩, sp_eq_zero_of_spDown_neg h, rfl⟩
  | @pushUnderflow r _ _ habove hle => exact ⟨.inl ⟨r, .inl rfl⟩, habove, hle⟩
  | @callUnderflow r _ _ habove hle => exact ⟨.inl ⟨r, .inr (.inl rfl)⟩, habove, hle⟩
  | @popUnderflow r _ _ habove hle => exact ⟨.inl ⟨r, .inr (.inr rfl)⟩, habove, hle⟩
  | retUnderflow _ habove hle => exact ⟨.inr rfl, habove, hle⟩
  | @returnAddress r _ h hge => exact ⟨⟨r, rfl⟩, by omega⟩

end Sys2Proof.Machine
end

section
/-! The program counter and the invariant (40_engine_cycle.md R115; 10_state.md R24, R28, R29): an instruction that lies whole
in memory leaves `pc` at most 256, and every cycle keeps `State.Inv`. -/

namespace Sys2Proof.Machine

variable {c : Config} {s t : State} {i : Instr}

/-! ### The program counter -/

/-- An advance that stays in the range of `pc` is the exact sum. -/
theorem State.pc_advance_of_le {k : Nat} (s : State) (h : s.pc.toNat + k ≤ 256) :
    (s.advance k).pc.toNat = s.pc.toNat + k := s.pc_advance_toNat k (by omega)

theorem State.pc_advance_le {k : Nat} (s : State) (h : s.pc.toNat + k ≤ 256) : (s.advance k).pc.toNat ≤ 256 :=
  (s.pc_advance_of_le h).trans_le h

theorem State.pc_goto_le (s : State) (v : Byte) : (s.goto v).pc.toNat ≤ 256 := by
  have := v.isLt
  rw [State.pc_goto_toNat]
  omega

/-- An instruction that lies whole in memory leaves `pc` at most 256 (R115). -/
theorem Effect.pc_le (h : Effect c s i t) (hfits : s.pc.toNat + i.length ≤ 256) : t.pc.toNat ≤ 256 := by
  cases h with
  | fault _ => exact (Nat.le_add_right _ _).trans hfits
  | halt | loadImmediate _ | printReg _ | compare _ _ | add _ _ | multiply _ _ | jumpIfEqualNot _ | jumpIfNotEqualNot _
  | push _ _ _ | pop _ _ => exact State.pc_advance_le _ hfits
  | jump _ | jumpIfEqualTaken _ _ | jumpIfNotEqualTaken _ _ | call _ _ _ _ => exact State.pc_goto_le _ _
  | ret _ => exact s.pc_goto_le _

/-- The target of a CALL is what its register holds after the stack pointer was decremented (44_stack_and_subroutines.md
R195). -/
theorem regUnderSp_eq_reg_stored (s : State) (k : Fin numRegs) (v : Byte) :
    regUnderSp s k = (stored s (spDown s) v).reg k := by
  rw [stored, State.reg_setSp, regUnderSp]
  simp only [eq_comm (a := k)]
  rfl

/-- Settles O14: each end of `Effect` that is no fault is an advance by the length or a transfer. -/
theorem programCounterUpdate : Obligations.ProgramCounterUpdate := by
  intro i s t hfits hexec hok
  have heffect := effect_of_exec hexec
  refine ⟨heffect.pc_le hfits, ?_⟩
  cases heffect with
  | fault _ => exact absurd rfl hok
  | halt | loadImmediate _ | printReg _ | compare _ _ | add _ _ | multiply _ _ | push _ _ _ | pop _ _ =>
    exact State.pc_advance_of_le _ hfits
  | jump hr => exact ⟨hr, toNat_target _⟩
  | jumpIfEqualTaken hfl hr =>
    simp only [if_pos hfl]
    exact ⟨hr, toNat_target _⟩
  | jumpIfEqualNot hfl =>
    simp only [if_neg hfl]
    exact State.pc_advance_of_le _ hfits
  | jumpIfNotEqualTaken hfl hr =>
    simp only [if_neg hfl]
    exact ⟨hr, toNat_target _⟩
  | jumpIfNotEqualNot hfl =>
    simp only [if_pos hfl]
    exact State.pc_advance_of_le _ hfits
  | call _ _ _ hr => exact ⟨hr, (toNat_target _).trans (congrArg _ (regUnderSp_eq_reg_stored s _ _))⟩
  | ret _ => exact toNat_target _

/-! ### The records that fault entry writes are sound (60_exceptions.md R221 to R226) -/

/-- The record that fault entry writes from `s` (R229). -/
abbrev recordOf (s : State) (opcode : Option Byte) (e : Raise) : FaultRecord := ⟨e.kind, s.pc, opcode, e.info⟩

/-- The record of a fetch fault is sound: only the opcode fetch at 256 has no opcode (R221, R223). -/
theorem Fetch.record_sound {f : FetchFault} (h : Fetch c s (.error f)) (hpc : s.pc.toNat ≤ 256) :
    (recordOf s f.opcode f.cause).sound c := by
  cases h with
  | opcodePastEnd hp =>
    have hpc' : s.pc.toNat = 256 := by omega
    exact ⟨iff_of_true rfl hpc', fun _ => rfl, congrArg Nat.cast hpc'⟩
  | unsupported hp hnone => exact ⟨iff_of_false nofun hp.ne, nofun, _, rfl, hnone, rfl⟩
  | operandPastEnd hp _ _ => exact ⟨iff_of_false nofun hp.ne, nofun, rfl⟩

/-- The record of an instruction's own fault is sound; CALL's return address is at most 256, since its bytes lie in memory. -/
theorem MayRaise.record_sound {e : Raise} {opcode : Byte} (h : MayRaise c s i e) (hfits : s.pc.toNat + i.length ≤ 256) :
    (recordOf s (some opcode) e).sound c := by
  have hpc : s.pc.toNat ≠ 256 := by
    rw [Instr.length] at hfits
    omega
  refine ⟨iff_of_false nofun hpc, nofun, ?_⟩
  cases h with
  | @badIndex _ b _ hge =>
    have := b.isLt
    exact ⟨by simpa using hge, by simp only; omega⟩
  | pushOverflow _ | callOverflow _ => rfl
  | pushUnderflow _ habove hle | callUnderflow _ habove hle | popUnderflow _ habove hle | retUnderflow _ habove hle =>
    exact ⟨habove, hle⟩
  | @returnAddress _ n h hge =>
    change s.pc.toNat + 2 ≤ 256 at hfits
    change n = 256
    omega

/-! ### Every cycle keeps the invariant -/

/-- Fault entry keeps the invariant when the record it writes is sound. -/
theorem State.Inv.takeFault {opcode : Option Byte} {e : Raise} (hinv : s.Inv c)
    (hsound : (recordOf s opcode e).sound c) : (takeFault opcode e s).Inv c where
  pcInRange := hinv.pcInRange
  memCanonical := hinv.memCanonical
  faultedIffRecord := iff_of_true rfl nofun
  recordSound := by
    rintro r ⟨⟩
    exact ⟨hsound, rfl⟩

/-- Only PUSH and CALL write memory, and they write below `STACK_TOP`. -/
theorem Effect.mem_wf (h : Effect c s i t) (hwf : s.mem.wf = true) : t.mem.wf = true := by
  cases h with
  | push h0 h1 _ | call h0 h1 _ _ => exact Memory.wf_poke _ hwf (accepted_sp_toNat h0 h1).2
  | _ => exact hwf

theorem Effect.keeps_inv (h : Effect c s i t) (hinv : s.Inv c) (hrun : s.engine = .running)
    (hfits : s.pc.toNat + i.length ≤ 256) : t.Inv c := by
  by_cases hfaulted : t.engine = .faulted
  · obtain ⟨e, hraise, rfl⟩ := h.eq_takeFault hrun hfaulted
    exact hinv.takeFault (hraise.record_sound hfits)
  · have hnone : s.fault = none := by
      by_contra hrecord
      exact absurd (hrun.symm.trans (hinv.faultedIffRecord.2 hrecord)) nofun
    have hnone' : t.fault = none := (h.fault_eq hfaulted).trans hnone
    exact ⟨h.pc_le hfits, h.mem_wf hinv.memCanonical, h.faulted_iff hrun hnone, by simp only [hnone']; exact nofun⟩

/-- Every cycle keeps the invariant, under every configuration. -/
theorem stepIn_keeps_inv (hinv : s.Inv c) : (stepIn c s).Inv c := by
  by_cases hrun : s.engine = .running
  · rcases stepIn_cases c hrun with ⟨f, hfetch, hstep⟩ | ⟨i, hfetch, heffect⟩
    · rw [hstep]
      exact hinv.takeFault (hfetch.record_sound hinv.pcInRange)
    · exact heffect.keeps_inv hinv hrun hfetch.fits
  · rwa [stepIn_of_stopped hrun]

/-- Settles O47: the step of the fixed name is the step of the default configuration. -/
theorem stepKeepsTheInvariant : Obligations.StepKeepsTheInvariant :=
  ⟨fun _ _ hinv hstep => stepIn_of_step hstep ▸ stepIn_keeps_inv hinv, fun _ _ hinv => stepIn_keeps_inv hinv⟩

/-- Settles O46: reset memory is empty, and there is no record. -/
theorem resetMeetsTheInvariant : Obligations.ResetMeetsTheInvariant := fun c =>
  ⟨Nat.zero_le 256, State.resetIn_mem_wf c, iff_of_false nofun (fun h => h rfl), nofun⟩

/-! ### When no fault arises (60_exceptions.md R238) -/

/-- A register operand of a well-formed instruction names a register. -/
theorem Instr.operand_lt_of_wellFormed {b : Byte} (h : i.wellFormed = true) (hmem : b ∈ i.registerOperands) :
    b.toNat < 8 := by
  simpa [namesRegister] using List.all_eq_true.1 h b hmem

/-- For a register other than the stack pointer the pointer that POP checks is one more than the stack pointer. -/
theorem popSp_of_ne {k : Fin numRegs} (hk : k ≠ spIndex) : popSp s k = s.sp.toNat + 1 := by rw [popSp, if_neg hk]

/-- An operand other than 7 names a register other than the stack pointer. -/
theorem ne_spIndex_of_ne_seven {r : Byte} {k : Fin numRegs} (hk : k.val = r.toNat) (hr : r ≠ 7) : k ≠ spIndex := by
  rintro rfl
  exact hr (BitVec.eq_of_toNat_eq hk.symm)

/-- The conditions of R238 exclude every fault that the instruction could raise. -/
theorem State.mayRun.not_mayRaise {e : Raise} (hmay : s.mayRun c i) : ¬ MayRaise c s i e := by
  obtain ⟨hwf, hstack⟩ := hmay
  intro hraise
  cases hraise with
  | badIndex hmem hge =>
    have := Instr.operand_lt_of_wellFormed hwf hmem
    omega
  | pushOverflow h | callOverflow h | pushUnderflow h _ _ | callUnderflow h _ _ =>
    simp only [spDown] at *
    omega
  | popUnderflow h habove _ =>
    obtain ⟨k, hk, rfl⟩ := h
    obtain ⟨hr, hlt⟩ := hstack
    rw [popSp_of_ne (ne_spIndex_of_ne_seven hk hr)] at habove
    omega
  | retUnderflow h habove _ =>
    simp only at *
    omega
  | returnAddress _ _ =>
    obtain ⟨-, -, hret⟩ := hstack
    omega

/-- Settles O48: a decoded cycle is the effect of its instruction, which may raise nothing. -/
theorem noFaultUnderTheConditions : Obligations.NoFaultUnderTheConditions := by
  intro c s i rest hrun hdecode hmay hfaulted
  rw [stepIn_of_fetch_ok hrun (fetchIn_of_decode hdecode)] at hfaulted
  obtain ⟨e, hraise, -⟩ := (effectIn_effect c s i).eq_takeFault hrun hfaulted
  exact hmay.not_mayRaise hraise

end Sys2Proof.Machine
end

section
/-! Each end of each instruction under its own condition, as an equation (41_system_and_data.md to 44_stack_and_subroutines.md).
-/

namespace Sys2Proof.Machine

variable {c : Config} {s : State} {r a b : Byte} {n : Int}

/-! ### System and data, jumps -/

theorem loadImmediateIn_of_ge (v : Byte) (hr : 8 ≤ r.toNat) :
    loadImmediateIn c r v s = takeFault (some c.opc.loadImmediate) (badIndex r) s :=
  ((loadImmediateIn_cases c s r v).resolve_right fun ⟨hlt, _⟩ => by omega).2

theorem loadImmediateIn_of_lt (v : Byte) (hr : r.toNat < 8) :
    loadImmediateIn c r v s = (s.setReg ⟨r.toNat, hr⟩ v).advance 3 :=
  ((loadImmediateIn_cases c s r v).resolve_left fun ⟨hge, _⟩ => by omega).2

theorem jumpToReg_of_ge (hr : 8 ≤ r.toNat) : jumpToReg r s = .error (badIndex r) :=
  ((jumpToReg_cases s r).resolve_right fun ⟨hlt, _⟩ => by omega).2

theorem jumpToReg_of_lt (hr : r.toNat < 8) : jumpToReg r s = .ok (s.goto (s.reg ⟨r.toNat, hr⟩)) :=
  ((jumpToReg_cases s r).resolve_left fun ⟨hge, _⟩ => by omega).2

theorem jumpIn_of_ge (hr : 8 ≤ r.toNat) : jumpIn c r s = takeFault (some c.opc.jump) (badIndex r) s := by
  rw [jumpIn, jumpToReg_of_ge hr]
  rfl

theorem jumpIn_of_lt (hr : r.toNat < 8) : jumpIn c r s = s.goto (s.reg ⟨r.toNat, hr⟩) := by
  rw [jumpIn, jumpToReg_of_lt hr, settle_ok]

theorem Flag.isEqual_iff (f : Flag) : f.isEqual = true ↔ f = .equal := beq_iff_eq

theorem jumpWhenIn_taken_of_ge (m : Mnemonic) (hr : 8 ≤ r.toNat) :
    jumpWhenIn c m true r s = takeFault (some (c.opc.of m)) (badIndex r) s := by
  rw [jumpWhenIn, if_pos rfl, jumpToReg_of_ge hr, settle_error]

theorem jumpWhenIn_taken_of_lt (m : Mnemonic) (hr : r.toNat < 8) :
    jumpWhenIn c m true r s = s.goto (s.reg ⟨r.toNat, hr⟩) := by
  rw [jumpWhenIn, if_pos rfl, jumpToReg_of_lt hr, settle_ok]

/-- A conditional jump that is not taken tests no operand (R171, R172). -/
theorem jumpWhenIn_not_taken (m : Mnemonic) : jumpWhenIn c m false r s = s.advance 2 := rfl

/-- JUMP_IF_EQUAL is the conditional jump that is taken on `E` (R171). -/
theorem jumpIfEqualIn_of_equal (hfl : s.fl = .equal) : jumpIfEqualIn c r s = jumpWhenIn c .jumpIfEqual true r s := by
  rw [jumpIfEqualIn, (Flag.isEqual_iff _).2 hfl]

theorem jumpIfEqualIn_of_ne_equal (hfl : s.fl ≠ .equal) : jumpIfEqualIn c r s = s.advance 2 := by
  rw [jumpIfEqualIn, Bool.eq_false_iff.2 fun h => hfl ((Flag.isEqual_iff _).1 h), jumpWhenIn_not_taken]

/-- JUMP_IF_NOT_EQUAL is the conditional jump that is taken on every other flag (R172). -/
theorem jumpIfNotEqualIn_of_ne_equal (hfl : s.fl ≠ .equal) :
    jumpIfNotEqualIn c r s = jumpWhenIn c .jumpIfNotEqual true r s := by
  rw [jumpIfNotEqualIn, Bool.eq_false_iff.2 fun h => hfl ((Flag.isEqual_iff _).1 h), Bool.not_false]

theorem jumpIfNotEqualIn_of_equal (hfl : s.fl = .equal) : jumpIfNotEqualIn c r s = s.advance 2 := by
  rw [jumpIfNotEqualIn, (Flag.isEqual_iff _).2 hfl, Bool.not_true, jumpWhenIn_not_taken]

/-! ### The ALU instructions -/

theorem aluStepIn_of_ge_left (m : Mnemonic) (kind : AluKind) (ha : 8 ≤ a.toNat) :
    aluStepIn c m kind a b s = takeFault (some (c.opc.of m)) (badIndex a) s := by
  rw [aluStepIn, alu_of_ge_left kind ha, error_bind, settle_error]

theorem aluStepIn_of_ge_right (m : Mnemonic) (kind : AluKind) (ha : a.toNat < 8) (hb : 8 ≤ b.toNat) :
    aluStepIn c m kind a b s = takeFault (some (c.opc.of m)) (badIndex b) s := by
  rw [aluStepIn, alu_of_ge_right kind ha hb, error_bind, settle_error]

theorem aluStepIn_of_lt (m : Mnemonic) (kind : AluKind) (ha : a.toNat < 8) (hb : b.toNat < 8) :
    aluStepIn c m kind a b s = (kind.result s ⟨a.toNat, ha⟩ ⟨b.toNat, hb⟩).advance 3 :=
  aluStepIn_of_alu_ok c m (alu_of_lt kind ha hb)

/-! ### The stack instructions: `n` is the new stack pointer before its check -/

/-- The tests of PUSH after an accepted stack check (R190). -/
theorem pushIn_of_accepted (h0 : 0 ≤ spDown s) (h1 : spDown s ≤ c.stackTop.toNat) :
    pushIn c r s = settle (some c.opc.push) s (regAfterSp s r (spDown s) >>= fun v =>
      .ok ((stored s (spDown s) v).advance 2)) := by
  simp only [pushIn, stackCheck_ok h0 h1, storeAtSp_ok _ h0 h1, ok_bind, Opcodes.of]

theorem pushIn_overflow (hn : spDown s = n) (hneg : n < 0) :
    pushIn c r s = takeFault (some c.opc.push) ⟨.stackOverflow, n⟩ s := by
  simp only [pushIn, hn, stackCheck_below hneg, error_bind, settle_error, Opcodes.of]

theorem pushIn_underflow (hn : spDown s = n) (habove : c.stackTop.toNat < n) :
    pushIn c r s = takeFault (some c.opc.push) ⟨.stackUnderflow, n⟩ s := by
  simp only [pushIn, hn, stackCheck_above habove, error_bind, settle_error, Opcodes.of]

theorem pushIn_of_ge (h0 : 0 ≤ spDown s) (h1 : spDown s ≤ c.stackTop.toNat) (hr : 8 ≤ r.toNat) :
    pushIn c r s = takeFault (some c.opc.push) (badIndex r) s := by
  rw [pushIn_of_accepted h0 h1, regAfterSp_of_ge hr, error_bind, settle_error]

theorem pushIn_of_lt (h0 : 0 ≤ spDown s) (h1 : spDown s ≤ c.stackTop.toNat) (hr : r.toNat < 8) :
    pushIn c r s = (stored s (spDown s) (regUnderSp s ⟨r.toNat, hr⟩)).advance 2 := by
  rw [pushIn_of_accepted h0 h1, regAfterSp_of_lt hr, ok_bind, settle_ok]

theorem callIn_overflow (hn : spDown s = n) (hneg : n < 0) :
    callIn c r s = takeFault (some c.opc.call) ⟨.stackOverflow, n⟩ s := by
  simp only [callIn, hn, stackCheck_below hneg, error_bind, settle_error, Opcodes.of]

theorem callIn_underflow (hn : spDown s = n) (habove : c.stackTop.toNat < n) :
    callIn c r s = takeFault (some c.opc.call) ⟨.stackUnderflow, n⟩ s := by
  simp only [callIn, hn, stackCheck_above habove, error_bind, settle_error, Opcodes.of]

/-- A return address that is no byte (R192, decision D7). -/
theorem callIn_of_return_ge (h0 : 0 ≤ spDown s) (h1 : spDown s ≤ c.stackTop.toNat) (hp : 254 ≤ s.pc.toNat) :
    callIn c r s = takeFault (some c.opc.call) ⟨.outOfBounds, s.pc.toNat + 2⟩ s := by
  simp only [callIn, stackCheck_ok h0 h1, ok_bind, returnAddress_of_ge (Nat.add_le_add_right hp 2), error_bind,
    settle_error]
  rfl

/-- The tests of CALL after an accepted stack check and a return address that is a byte (R192). -/
theorem callIn_of_accepted (h0 : 0 ≤ spDown s) (h1 : spDown s ≤ c.stackTop.toNat) (hp : s.pc.toNat < 254) :
    callIn c r s = settle (some c.opc.call) s (regAfterSp s r (spDown s) >>= fun target =>
      .ok ((stored s (spDown s) (BitVec.ofNat 8 (s.pc.toNat + 2))).goto target)) := by
  simp only [callIn, stackCheck_ok h0 h1, returnAddress_of_lt (Nat.add_lt_add_right hp 2), storeAtSp_ok _ h0 h1, ok_bind,
    Opcodes.of]

theorem callIn_of_ge (h0 : 0 ≤ spDown s) (h1 : spDown s ≤ c.stackTop.toNat) (hp : s.pc.toNat < 254) (hr : 8 ≤ r.toNat) :
    callIn c r s = takeFault (some c.opc.call) (badIndex r) s := by
  rw [callIn_of_accepted h0 h1 hp, regAfterSp_of_ge hr, error_bind, settle_error]

theorem callIn_of_lt (h0 : 0 ≤ spDown s) (h1 : spDown s ≤ c.stackTop.toNat) (hp : s.pc.toNat < 254) (hr : r.toNat < 8) :
    callIn c r s =
      (stored s (spDown s) (BitVec.ofNat 8 (s.pc.toNat + 2))).goto (regUnderSp s ⟨r.toNat, hr⟩) := by
  rw [callIn_of_accepted h0 h1 hp, regAfterSp_of_lt hr, ok_bind, settle_ok]

theorem popIn_of_ge (hr : 8 ≤ r.toNat) : popIn c r s = takeFault (some c.opc.pop) (badIndex r) s := by
  obtain ⟨-, h⟩ | ⟨hlt, -⟩ | ⟨hlt, -⟩ := popIn_cases c s r
  · exact h
  · omega
  · omega

theorem popIn_underflow {hr : r.toNat < 8} (hn : popSp s ⟨r.toNat, hr⟩ = n) (habove : c.stackTop.toNat < n) :
    popIn c r s = takeFault (some c.opc.pop) ⟨.stackUnderflow, n⟩ s := by
  subst hn
  obtain ⟨hge, -⟩ | ⟨_, _, h⟩ | ⟨_, hle, _⟩ := popIn_cases c s r
  · omega
  · exact h
  · omega

theorem popIn_of_lt {hr : r.toNat < 8} (hn : popSp s ⟨r.toNat, hr⟩ = n) (hle : n ≤ c.stackTop.toNat) :
    popIn c r s =
      ((s.setReg ⟨r.toNat, hr⟩ (s.mem.peek s.sp.toNat)).setSp (BitVec.ofInt 8 n)).advance 2 := by
  subst hn
  obtain ⟨hge, -⟩ | ⟨_, habove, _⟩ | ⟨_, _, h⟩ := popIn_cases c s r
  · omega
  · omega
  · exact h

theorem retIn_underflow (habove : (c.stackTop.toNat : Int) < s.sp.toNat + 1) :
    retIn c s = takeFault (some c.opc.ret) ⟨.stackUnderflow, s.sp.toNat + 1⟩ s :=
  ((retIn_cases c s).resolve_right fun ⟨hle, _⟩ => by omega).2

theorem retIn_of_le (hle : (s.sp.toNat : Int) + 1 ≤ c.stackTop.toNat) :
    retIn c s = (s.goto (s.mem.peek s.sp.toNat)).setSp (BitVec.ofInt 8 (s.sp.toNat + 1)) :=
  ((retIn_cases c s).resolve_left fun ⟨habove, _⟩ => by omega).2

end Sys2Proof.Machine
end

section
/-! What each kind of write leaves unchanged (10_state.md R20 to R23; 20_memory.md section 4). -/

namespace Sys2Proof.Machine

variable {c : Config} {s t : State} {i : Instr}

/-! ### Registers -/

theorem State.reg_setReg_same (s : State) (k : Fin numRegs) (v : Byte) : (s.setReg k v).reg k = v := by
  rw [State.reg_setReg, if_pos rfl]

/-- A register that changed is one of those that may. -/
theorem KeepsRegsExcept.mem_of_ne {js : List (Fin numRegs)} {j : Fin numRegs} (h : KeepsRegsExcept js s t)
    (hne : t.reg j ≠ s.reg j) : j ∈ js := by
  by_contra hj
  exact hne (h j hj)

/-- A stack store writes the stack pointer and no other register (R32). -/
theorem stored_keepsRegsExcept (s : State) (n : Int) (v : Byte) : KeepsRegsExcept [spIndex] s (stored s n v) :=
  State.setReg_keepsRegsExcept _ spIndex _

/-- POP writes its register and the stack pointer (R191). -/
theorem setReg_setSp_keepsRegsExcept (s : State) (k : Fin numRegs) (v w : Byte) :
    KeepsRegsExcept [k, spIndex] s ((s.setReg k v).setSp w) := by
  intro j hj
  obtain ⟨hk, hsp⟩ : j ≠ k ∧ j ≠ spIndex := by simpa using hj
  rw [State.reg_setSp, if_neg hsp.symm, State.reg_setReg, if_neg hk.symm]

/-- Settles O34: the access rules of R23, and the write of one entry of the register array. -/
theorem registerFileContract : Obligations.RegisterFileContract := by
  intro s i v
  refine ⟨fun hi => regGet_of_lt hi, fun hi => regGet_of_ge hi, fun hi => ?write, fun hi => regSet_of_ge v hi⟩
  case write => exact ⟨_, regSet_of_lt v hi, s.reg_setReg_same _ v, s.setReg_keepsRegsExcept _ v⟩

/-- Settles O38: the register writes among the ends of `Effect`. -/
theorem registerWrites : Obligations.RegisterWrites := by
  intro i s t j hexec hne
  cases effect_of_exec hexec with
  | fault _ => exact absurd rfl hne
  | loadImmediate _ | add _ _ | multiply _ _ =>
    have hj := (s.setReg_keepsRegsExcept _ _).mem_of_ne hne
    exact (congrArg Fin.val (List.mem_singleton.1 hj)).symm
  | push _ _ _ | call _ _ _ _ => exact List.mem_singleton.1 ((stored_keepsRegsExcept s _ _).mem_of_ne hne)
  | ret _ => exact List.mem_singleton.1 ((State.setReg_keepsRegsExcept _ spIndex _).mem_of_ne hne)
  | pop hr _ =>
    have hj := (setReg_setSp_keepsRegsExcept s _ _ _).mem_of_ne hne
    exact (List.mem_pair.1 hj).imp_left fun hk => (congrArg Fin.val hk).symm
  | _ => exact hne rfl

/-! ### Memory -/

/-- A stack store writes the byte at the new stack pointer and no other byte (R32). -/
theorem stored_keepsMemExcept (s : State) (n : Int) (v : Byte) : KeepsMemExcept [n.toNat] s (stored s n v) := fun _ ha =>
  Memory.peek_poke_other s.mem v fun h => ha (List.mem_singleton.2 h.symm)

/-- Only PUSH and CALL write memory. -/
theorem Effect.mem_eq (h : Effect c s i t) (hpush : ∀ r, i ≠ .push r) (hcall : ∀ r, i ≠ .call r) : t.mem = s.mem := by
  cases h with
  | push _ _ _ => exact absurd rfl (hpush _)
  | call _ _ _ _ => exact absurd rfl (hcall _)
  | _ => rfl

/-- The one byte of memory that an instruction may write is that at the decremented stack pointer. -/
theorem Effect.keepsMemExcept (h : Effect c s i t) : KeepsMemExcept [(spDown s).toNat] s t := by
  cases h with
  | push _ _ _ | call _ _ _ _ => exact stored_keepsMemExcept s _ _
  | _ => exact fun _ _ => rfl

/-- Only COMPARE writes the flags (10_state.md R26). -/
theorem Effect.fl_eq (h : Effect c s i t) (hi : ∀ a b, i ≠ .compare a b) : t.fl = s.fl := by
  cases h with
  | compare _ _ => exact absurd rfl (hi _ _)
  | _ => rfl

end Sys2Proof.Machine
end

section
/-! The rules of the instructions without a stack access: result, frame and faults (41_system_and_data.md, 42_alu.md,
43_jumps.md). -/

namespace Sys2Proof.Machine

variable {s t : State} {i : Instr}

/-- The next state of an instruction in the default configuration. -/
theorem exec_eq_of_effectIn (h : effectIn Config.standard i s = t) : exec i s = .next t := by
  rw [exec_eq_next_effectIn, h]

/-- An effect that is a fault entry with the instruction's opcode is the fault of `FaultsWith` (60_exceptions.md R229). -/
theorem faultsWith_of_effectIn {kind : Fault} {info : Int}
    (h : effectIn Config.standard i s = takeFault (some (Opcodes.standard.of i.mnemonic)) ⟨kind, info⟩ s) :
    FaultsWith i s kind info :=
  exec_eq_of_effectIn h

/-- Settles O15: HALT has no test. -/
theorem haltStopsTheEngine : Obligations.HaltStopsTheEngine := by
  intro s
  refine ⟨_, exec_eq_of_effectIn (haltIn_eq Config.standard s), rfl, fun hpc => ?_, fun _ _ => rfl, fun _ _ => rfl, rfl, rfl,
    rfl⟩
  exact s.pc_advance_of_le (by omega)

/-- Settles O16: the register test and the write, and the operand fetch beyond 255. -/
theorem loadImmediateWritesTheRegister : Obligations.LoadImmediateWritesTheRegister := by
  intro r v s
  refine ⟨rfl, fun hr => ?written, fun hr => ?badRegister, fun hrun hpc hopcode => ?pastEnd⟩
  case written =>
    refine ⟨_, exec_eq_of_effectIn (loadImmediateIn_of_lt v hr), State.reg_setReg_same s _ v, fun hpc => ?_,
      s.setReg_keepsRegsExcept _ v, fun _ _ => rfl, rfl, rfl, rfl, rfl⟩
    exact State.pc_advance_of_le _ (Nat.add_le_add_right hpc 3)
  case badRegister => exact ⟨_, _, exec_eq_of_effectIn (loadImmediateIn_of_ge v hr), rfl, rfl, rfl, rfl⟩
  case pastEnd =>
    have hend : 255 < s.pc.toNat + Mnemonic.loadImmediate.operandCount := by
      change 255 < s.pc.toNat + 2
      omega
    exact ⟨_, _, operandFetchPast255Faults s .loadImmediate hrun (by omega) hopcode hend, rfl, rfl, rfl⟩

/-- Settles O17: the register test and the emission; after LOAD_IMMEDIATE the register holds the immediate. -/
theorem printRegEmitsTheRegister : Obligations.PrintRegEmitsTheRegister := by
  intro r s
  refine ⟨rfl, fun hr => ?emitted, fun hr => ?badRegister, fun hr v => ?afterLoad⟩
  case emitted =>
    refine ⟨_, exec_eq_of_effectIn (printRegIn_of_lt _ s hr), rfl, fun hpc => ?_, fun _ _ => rfl, fun _ _ => rfl, rfl, rfl,
      rfl⟩
    exact State.pc_advance_of_le _ (Nat.add_le_add_right hpc 2)
  case badRegister => exact ⟨_, _, exec_eq_of_effectIn (printRegIn_of_ge _ s hr), rfl, rfl, rfl, rfl, rfl⟩
  case afterLoad =>
    refine ⟨_, _, exec_eq_of_effectIn (loadImmediateIn_of_lt v hr), exec_eq_of_effectIn (printRegIn_of_lt _ _ hr), ?_⟩
    exact congrArg (s.out ++ [·]) (s.reg_setReg_same _ v)

/-! ### The ALU -/

/-- The outcome of a COMPARE is `E`, `L` or `G` as the first byte is equal to, below or above the second (R153). -/
theorem compareFlag_iffs (p q : Byte) :
    (compareFlag p q = .equal ↔ p.toNat = q.toNat) ∧ (compareFlag p q = .less ↔ p.toNat < q.toNat) ∧
      (compareFlag p q = .greater ↔ q.toNat < p.toNat) := by
  rcases Nat.lt_trichotomy p.toNat q.toNat with h | h | h
  · simp [compareFlag, h, h.ne, h.le]
  · simp [compareFlag, h]
  · simp [compareFlag, h, h.ne', h.asymm]

/-- Settles O19: the two register tests in their order, then the outcome of the comparison. -/
theorem compareSetsOneOutcome : Obligations.CompareSetsOneOutcome := by
  intro a b s
  refine ⟨fun ha hb => ?compared, fun ha => ?badFirst, fun ha hb => ?badSecond⟩
  case compared =>
    obtain ⟨hequal, hless, hgreater⟩ := compareFlag_iffs (s.reg ⟨a.toNat, ha⟩) (s.reg ⟨b.toNat, hb⟩)
    refine ⟨_, exec_eq_of_effectIn (aluStepIn_of_lt .compare .compare ha hb), hequal, hless, hgreater, fun hpc => ?_,
      fun _ _ => rfl, fun _ _ => rfl, rfl, rfl, rfl⟩
    exact State.pc_advance_of_le _ (Nat.add_le_add_right hpc 3)
  case badFirst => exact faultsWith_of_effectIn (aluStepIn_of_ge_left .compare .compare ha)
  case badSecond => exact faultsWith_of_effectIn (aluStepIn_of_ge_right .compare .compare ha hb)

/-- The clauses that ADD and MULTIPLY share, for the value that the ALU writes: success, bad first and bad second operand
(R150, R154, R155). -/
theorem alu_write_clauses {m : Mnemonic} {kind : AluKind} {a b : Byte} {f : Byte → Byte → Byte} {g : Nat → Nat → Nat}
    (s : State)
    (hexec : exec i s = .next (aluStepIn Config.standard m kind a b s))
    (hresult : ∀ j k, kind.result s j k = s.setReg j (f (s.reg j) (s.reg k)))
    (hvalue : ∀ p q, (f p q).toNat = g p.toNat q.toNat % 256) :
    (∀ (ha : a.toNat < 8) (hb : b.toNat < 8), ∃ t, exec i s = .next t ∧
      (t.reg ⟨a.toNat, ha⟩).toNat = g (s.reg ⟨a.toNat, ha⟩).toNat (s.reg ⟨b.toNat, hb⟩).toNat % 256 ∧
      (s.pc.toNat ≤ 253 → t.pc.toNat = s.pc.toNat + 3) ∧
      KeepsRegsExcept [⟨a.toNat, ha⟩] s t ∧ KeepsMemExcept [] s t ∧ t.fl = s.fl ∧ t.out = s.out ∧ KeepsStatus s t) ∧
    (8 ≤ a.toNat → ∃ t f, exec i s = .next t ∧ t.engine = .faulted ∧ t.fault = some f ∧
      f.kind = .invalidRegister ∧ f.info = a.toNat ∧ KeepsRegsExcept [] s t) ∧
    (a.toNat < 8 → 8 ≤ b.toNat → ∃ t f, exec i s = .next t ∧ t.engine = .faulted ∧ t.fault = some f ∧
      f.kind = .invalidRegister ∧ f.info = b.toNat ∧ KeepsRegsExcept [] s t) := by
  refine ⟨fun ha hb => ?written, fun ha => ?badFirst, fun ha hb => ?badSecond⟩
  case written =>
    have hstep := hexec
    rw [aluStepIn_of_lt m kind ha hb, hresult] at hstep
    refine ⟨_, hstep, ?_, fun hpc => ?_, s.setReg_keepsRegsExcept _ _, fun _ _ => rfl, rfl, rfl, rfl, rfl⟩
    · rw [State.reg_advance, State.reg_setReg_same, hvalue]
    · exact State.pc_advance_of_le _ (Nat.add_le_add_right hpc 3)
  case badFirst =>
    rw [aluStepIn_of_ge_left m kind ha] at hexec
    exact ⟨_, _, hexec, rfl, rfl, rfl, rfl, fun _ _ => rfl⟩
  case badSecond =>
    rw [aluStepIn_of_ge_right m kind ha hb] at hexec
    exact ⟨_, _, hexec, rfl, rfl, rfl, rfl, fun _ _ => rfl⟩

/-- Settles O20: the ALU writes the narrowed sum. -/
theorem addWrapsModulo256 : Obligations.AddWrapsModulo256 := fun _ _ s =>
  ⟨rfl, alu_write_clauses (m := .add) (kind := .add) (f := aluSum) (g := (· + ·)) s rfl (fun _ _ => rfl)
    fun _ _ => BitVec.toNat_ofNat _ _⟩

/-- Settles O21: the ALU writes the narrowed product. -/
theorem multiplyKeepsTheLowByte : Obligations.MultiplyKeepsTheLowByte := fun _ _ s =>
  ⟨rfl, alu_write_clauses (m := .multiply) (kind := .multiply) (f := aluProduct) (g := (· * ·)) s rfl (fun _ _ => rfl)
    fun _ _ => BitVec.toNat_ofNat _ _⟩

/-! ### Jumps -/

/-- Settles O22: the register test and the transfer. -/
theorem jumpGoesToTheRegister : Obligations.JumpGoesToTheRegister := by
  intro r s
  refine ⟨rfl, fun hr => ?taken, fun hr => ?badRegister⟩
  case taken =>
    exact ⟨_, exec_eq_of_effectIn (jumpIn_of_lt hr), toNat_target _, fun _ _ => rfl, fun _ _ => rfl, rfl, rfl, rfl, rfl⟩
  case badRegister => exact ⟨_, _, exec_eq_of_effectIn (jumpIn_of_ge hr), rfl, rfl, rfl, rfl, rfl⟩

/-- A conditional jump that is taken through a register that exists goes to it and changes nothing else. -/
theorem taken_jump_clause {m : Mnemonic} {r : Byte} (h : effectIn Config.standard i s = jumpWhenIn Config.standard m true r s)
    (hr : r.toNat < 8) : ∃ t, exec i s = .next t ∧ t.pc.toNat = (s.reg ⟨r.toNat, hr⟩).toNat ∧
      KeepsRegsExcept [] s t ∧ KeepsMemExcept [] s t ∧ t.fl = s.fl ∧ t.out = s.out ∧ KeepsStatus s t :=
  ⟨_, exec_eq_of_effectIn (h.trans (jumpWhenIn_taken_of_lt m hr)), toNat_target _, fun _ _ => rfl, fun _ _ => rfl, rfl, rfl,
    rfl, rfl⟩

/-- An instruction that only advances by 2 changes nothing but `pc`. -/
theorem advance_clause (h : effectIn Config.standard i s = s.advance 2) :
    ∃ t, exec i s = .next t ∧ (s.pc.toNat ≤ 254 → t.pc.toNat = s.pc.toNat + 2) ∧
      KeepsRegsExcept [] s t ∧ KeepsMemExcept [] s t ∧ t.fl = s.fl ∧ t.out = s.out ∧ KeepsStatus s t :=
  ⟨_, exec_eq_of_effectIn h, fun hpc => s.pc_advance_of_le (Nat.add_le_add_right hpc 2), fun _ _ => rfl, fun _ _ => rfl, rfl,
    rfl, rfl, rfl⟩

/-- Settles O23: taken on `E`, with the register test only then. -/
theorem jumpIfEqualIsTakenOnEqual : Obligations.JumpIfEqualIsTakenOnEqual := by
  intro r s
  refine ⟨fun hfl hr => ?taken, fun hfl => ?notTaken, fun hfl hr => ?badRegister⟩
  case taken => exact taken_jump_clause (i := .jumpIfEqual r) (jumpIfEqualIn_of_equal hfl) hr
  case notTaken => exact advance_clause (jumpIfEqualIn_of_ne_equal hfl)
  case badRegister =>
    exact faultsWith_of_effectIn ((jumpIfEqualIn_of_equal hfl).trans (jumpWhenIn_taken_of_ge _ hr))

/-- Settles O24: taken on every flag but `E`, with the register test only then. -/
theorem jumpIfNotEqualIsTakenOnNotEqual : Obligations.JumpIfNotEqualIsTakenOnNotEqual := by
  intro r s
  refine ⟨fun hfl hr => ?taken, fun hfl => ?notTaken, fun hfl hr => ?badRegister⟩
  case taken => exact taken_jump_clause (i := .jumpIfNotEqual r) (jumpIfNotEqualIn_of_ne_equal hfl) hr
  case notTaken => exact advance_clause (jumpIfNotEqualIn_of_equal hfl)
  case badRegister =>
    exact faultsWith_of_effectIn ((jumpIfNotEqualIn_of_ne_equal hfl).trans (jumpWhenIn_taken_of_ge _ hr))

/-- Settles O32: the case split is on the equal flag. -/
theorem conditionalJumpsAreComplements : Obligations.ConditionalJumpsAreComplements := by
  intro r s hr
  by_cases hfl : s.fl = .equal
  · exact ⟨_, _, exec_eq_of_effectIn ((jumpIfEqualIn_of_equal hfl).trans (jumpWhenIn_taken_of_lt _ hr)),
      exec_eq_of_effectIn (jumpIfNotEqualIn_of_equal hfl), .inl ⟨rfl, rfl⟩⟩
  · exact ⟨_, _, exec_eq_of_effectIn (jumpIfEqualIn_of_ne_equal hfl),
      exec_eq_of_effectIn ((jumpIfNotEqualIn_of_ne_equal hfl).trans (jumpWhenIn_taken_of_lt _ hr)), .inr ⟨rfl, rfl⟩⟩

end Sys2Proof.Machine
end

section
/-! The rules of the stack instructions (44_stack_and_subroutines.md): result, frame and faults of each, and the two round trips,
which cite only those rules. -/

namespace Sys2Proof.Machine

variable {s : State} {r : Byte}

/-! ### The new stack pointer -/

theorem spDown_of_sp_eq_zero (h : s.sp.toNat = 0) : spDown s = -1 := by
  rw [spDown, h]
  rfl

/-- PUSH and CALL accept the stack pointers 1 to `STACK_TOP + 1` (decision D12). -/
theorem spDown_accepted (hpos : 0 < s.sp.toNat) (hle : s.sp.toNat ≤ 0xF4 + 1) :
    0 ≤ spDown s ∧ spDown s ≤ Config.standard.stackTop.toNat := by
  have htop : Config.standard.stackTop.toNat = 0xF4 := rfl
  rw [htop, spDown]
  omega

/-- A stack store at an accepted stack pointer leaves the stack pointer there. -/
theorem stored_sp_toNat {c : Config} {n : Int} (v : Byte) (h0 : 0 ≤ n) (h1 : n ≤ c.stackTop.toNat) :
    ((stored s n v).sp.toNat : Int) = n := by
  rw [stored, State.sp_setSp]
  exact (accepted_sp_toNat h0 h1).1

/-- The increment of a stack pointer below 255 does not wrap. -/
theorem ofInt_succ_toNat {k : Nat} (h : k < 255) : (BitVec.ofInt 8 ((k : Int) + 1)).toNat = k + 1 := by
  rw [BitVec.toNat_ofInt]
  omega

/-- The operand byte that names the stack pointer is 7 (R22). -/
theorem mk_eq_spIndex_iff (hr : r.toNat < 8) : (⟨r.toNat, hr⟩ : Fin numRegs) = spIndex ↔ r = 7 :=
  ⟨fun h => by_contra fun hne => ne_spIndex_of_ne_seven rfl hne h, fun h => by subst h; rfl⟩

/-- What PUSH and CALL read from their register, by its operand byte (R195). -/
theorem regUnderSp_eq (v : Byte) (hr : r.toNat < 8) :
    regUnderSp s ⟨r.toNat, hr⟩ = if r = 7 then (stored s (spDown s) v).sp else s.reg ⟨r.toNat, hr⟩ := by
  simp only [regUnderSp, mk_eq_spIndex_iff, State.sp_setSp]

/-! ### Result, frame and faults -/

/-- Settles O25: the stack test, the register test, then the store. -/
theorem pushStoresBelowTheStackPointer : Obligations.PushStoresBelowTheStackPointer := by
  intro r s
  refine ⟨fun hzero => ?overflow, fun habove => ?underflow, fun hpos hle hr => ?badRegister, fun hpos hle hr => ?stored⟩
  case overflow => exact faultsWith_of_effectIn (pushIn_overflow (spDown_of_sp_eq_zero hzero) (by decide))
  case underflow =>
    refine faultsWith_of_effectIn (pushIn_underflow rfl ?_)
    change (0xF4 : Int) < _
    omega
  case badRegister =>
    obtain ⟨h0, h1⟩ := spDown_accepted hpos hle
    exact faultsWith_of_effectIn (pushIn_of_ge h0 h1 hr)
  case stored =>
    obtain ⟨h0, h1⟩ := spDown_accepted hpos hle
    refine ⟨_, exec_eq_of_effectIn (pushIn_of_lt h0 h1 hr), stored_sp_toNat _ h0 h1, ?_, fun hpc => ?_,
      stored_keepsRegsExcept s _ _, stored_keepsMemExcept s _ _, rfl, rfl, rfl, rfl⟩
    · exact (Memory.peek_poke_same _ _ _).trans (regUnderSp_eq _ hr)
    · exact State.pc_advance_of_le _ (Nat.add_le_add_right hpc 2)

/-- Settles O27: the stack test, the return-address test, the register test, then the store and the transfer. -/
theorem callPushesTheReturnAddress : Obligations.CallPushesTheReturnAddress := by
  intro r s
  refine ⟨fun hzero => ?overflow, fun habove => ?underflow, fun hpos hle hp => ?noByte, fun hpos hle hp hr => ?badRegister,
    fun hpos hle hp hr => ?called⟩
  case overflow => exact faultsWith_of_effectIn (callIn_overflow (spDown_of_sp_eq_zero hzero) (by decide))
  case underflow =>
    refine faultsWith_of_effectIn (callIn_underflow rfl ?_)
    change (0xF4 : Int) < _
    omega
  case noByte =>
    obtain ⟨h0, h1⟩ := spDown_accepted hpos hle
    exact faultsWith_of_effectIn (callIn_of_return_ge h0 h1 hp)
  case badRegister =>
    obtain ⟨h0, h1⟩ := spDown_accepted hpos hle
    exact faultsWith_of_effectIn (callIn_of_ge h0 h1 hp hr)
  case called =>
    obtain ⟨h0, h1⟩ := spDown_accepted hpos hle
    refine ⟨_, exec_eq_of_effectIn (callIn_of_lt h0 h1 hp hr), stored_sp_toNat _ h0 h1, ?_, ?_,
      stored_keepsRegsExcept s _ _, stored_keepsMemExcept s _ _, rfl, rfl, rfl, rfl⟩
    · refine (congrArg BitVec.toNat (Memory.peek_poke_same _ _ _)).trans ?_
      rw [BitVec.toNat_ofNat]
      omega
    · exact (toNat_target _).trans (congrArg _ (regUnderSp_eq _ hr))

/-- The pointer that POP R7 checks is one more than the byte it loads (R195). -/
theorem popSp_spIndex (s : State) : popSp s spIndex = (s.mem.peek s.sp.toNat).toNat + 1 := by rw [popSp, if_pos rfl]

/-- Settles O26: the register test, the stack test on the pointer that POP checks, then the load. -/
theorem popLoadsTheTopOfStack : Obligations.PopLoadsTheTopOfStack := by
  intro r s
  have hother (hr : r.toNat < 8) (hne : r ≠ 7) : popSp s ⟨r.toNat, hr⟩ = s.sp.toNat + 1 :=
    popSp_of_ne ((mk_eq_spIndex_iff hr).not.2 hne)
  refine ⟨fun hr => ?badRegister, fun hr hne hge => ?underflow, fun hr hne hlt => ?popped, fun hge => ?underflow7,
    fun hlt => ?popped7⟩
  case badRegister => exact faultsWith_of_effectIn (popIn_of_ge hr)
  case underflow =>
    refine faultsWith_of_effectIn (popIn_underflow (hother hr hne) ?_)
    change (0xF4 : Int) < _
    omega
  case popped =>
    have hle : (s.sp.toNat : Int) + 1 ≤ (0xF4 : Nat) := by omega
    refine ⟨_, exec_eq_of_effectIn (popIn_of_lt (hother hr hne) hle), ?_, ?_, fun hpc => ?_,
      setReg_setSp_keepsRegsExcept s _ _ _, fun _ _ => rfl, rfl, rfl, rfl, rfl⟩
    · have hk : spIndex ≠ (⟨r.toNat, hr⟩ : Fin numRegs) := Ne.symm ((mk_eq_spIndex_iff hr).not.2 hne)
      rw [State.reg_advance, State.reg_setSp, if_neg hk, State.reg_setReg_same]
    · rw [State.sp_advance, State.sp_setSp, ofInt_succ_toNat (by omega)]
    · exact State.pc_advance_of_le _ (Nat.add_le_add_right hpc 2)
  case underflow7 =>
    refine faultsWith_of_effectIn (popIn_underflow (hr := by decide) (popSp_spIndex s) ?_)
    change (0xF4 : Int) < _
    omega
  case popped7 =>
    have hle : ((s.mem.peek s.sp.toNat).toNat : Int) + 1 ≤ (0xF4 : Nat) := by omega
    refine ⟨_, exec_eq_of_effectIn (popIn_of_lt (hr := by decide) (popSp_spIndex s) hle), ?_, fun hpc => ?_, fun j hj => ?_,
      fun _ _ => rfl, rfl, rfl, rfl, rfl⟩
    · rw [State.sp_advance, State.sp_setSp, ofInt_succ_toNat (by omega)]
    · exact State.pc_advance_of_le _ (Nat.add_le_add_right hpc 2)
    · exact setReg_setSp_keepsRegsExcept s spIndex _ _ j (by simpa using hj)

/-- Settles O28: the stack test, then the transfer to the byte loaded. -/
theorem returnPopsTheProgramCounter : Obligations.ReturnPopsTheProgramCounter := by
  intro s
  refine ⟨fun hge => ?underflow, fun hlt => ?returned⟩
  case underflow =>
    refine faultsWith_of_effectIn (retIn_underflow ?_)
    change (0xF4 : Int) < _
    omega
  case returned =>
    have hle : (s.sp.toNat : Int) + 1 ≤ (0xF4 : Nat) := by omega
    refine ⟨_, exec_eq_of_effectIn (retIn_of_le hle), toNat_target _, ?_, State.setReg_keepsRegsExcept _ spIndex _,
      fun _ _ => rfl, rfl, rfl, rfl, rfl⟩
    rw [State.sp_setSp, ofInt_succ_toNat (by omega)]

/-! ### Round trips -/

/-- The stack pointer after a decrement and an increment is the one at the start. -/
theorem sp_restored {t u : State} (hdown : (t.sp.toNat : Int) = spDown s) (hup : u.sp.toNat = t.sp.toNat + 1) :
    u.sp = s.sp := by
  refine BitVec.eq_of_toNat_eq ?_
  rw [spDown] at hdown
  omega

/-- After a decrement the stack pointer is the address of the store. -/
theorem sp_toNat_of_down {t : State} (hdown : (t.sp.toNat : Int) = spDown s) : (spDown s).toNat = t.sp.toNat := by
  rw [← hdown, Int.toNat_natCast]

/-- Settles O29: POP loads what PUSH stored, and increments what PUSH decremented. -/
theorem pushThenPopRestores : Obligations.PushThenPopRestores := by
  intro r s hr hpos hle
  obtain ⟨-, -, -, hpush⟩ := pushStoresBelowTheStackPointer r s
  obtain ⟨t, hexec, hdown, hstored, -, hregs, -, -, -, hengine, hfault⟩ := hpush hpos (by omega) hr
  rw [sp_toNat_of_down hdown] at hstored
  have hlt : t.sp.toNat < 0xF4 := by
    rw [spDown] at hdown
    omega
  obtain ⟨-, -, hpop, -, hpop7⟩ := popLoadsTheTopOfStack r t
  by_cases h7 : r = 7
  · rw [if_pos h7] at hstored
    obtain ⟨u, hexec', hup, -, hregs', -, -, -, hengine', hfault'⟩ := hpop7 (by rwa [hstored])
    rw [hstored] at hup
    refine ⟨t, u, hexec, h7 ▸ hexec', fun j => ?_, hengine'.trans hengine, hfault'.trans hfault⟩
    by_cases hj : j = spIndex
    · exact hj ▸ sp_restored hdown hup
    · exact (hregs' j (by simpa using hj)).trans (hregs j (by simpa using hj))
  · rw [if_neg h7] at hstored
    obtain ⟨u, hexec', hloaded, hup, -, hregs', -, -, -, hengine', hfault'⟩ := hpop hr h7 hlt
    refine ⟨t, u, hexec, hexec', fun j => ?_, hengine'.trans hengine, hfault'.trans hfault⟩
    by_cases hj : j = spIndex
    · exact hj ▸ sp_restored hdown hup
    · by_cases hk : j = ⟨r.toNat, hr⟩
      · exact hk ▸ hloaded.trans hstored
      · exact (hregs' j (by simp [hj, hk])).trans (hregs j (by simpa using hj))

/-- Settles O30: RETURN goes to the address that CALL stored, and increments what CALL decremented. -/
theorem callThenReturnResumes : Obligations.CallThenReturnResumes := by
  intro r s hr hpos hle hp
  obtain ⟨-, -, -, -, hcall⟩ := callPushesTheReturnAddress r s
  obtain ⟨t, hexec, hdown, hstored, -, hregs, -, -, -, hengine, hfault⟩ := hcall hpos (by omega) hp hr
  rw [sp_toNat_of_down hdown] at hstored
  have hlt : t.sp.toNat < 0xF4 := by
    rw [spDown] at hdown
    omega
  obtain ⟨-, hret⟩ := returnPopsTheProgramCounter t
  obtain ⟨u, hexec', hpc, hup, hregs', -, -, -, hengine', hfault'⟩ := hret hlt
  refine ⟨t, u, hexec, hexec', hpc.trans hstored, fun j => ?_, hengine'.trans hengine, hfault'.trans hfault⟩
  by_cases hj : j = spIndex
  · exact hj ▸ sp_restored hdown hup
  · exact (hregs' j (by simpa using hj)).trans (hregs j (by simpa using hj))

/-- Settles O31: the opcode fetch reads the byte at `pc`, and there PUSH stored its register. -/
theorem pushedByteIsFetched : Obligations.PushedByteIsFetched := by
  intro r s hr p hpos hle hp
  obtain ⟨-, -, -, hpush⟩ := pushStoresBelowTheStackPointer r s
  obtain ⟨t, hexec, -, hstored, -⟩ := hpush hpos hle hr
  have hpc : p.toNat ≤ 255 := by
    rw [spDown] at hp
    omega
  refine ⟨t, hexec, ?_⟩
  rw [opcodeFetchFaultsOnlyAt256.2 { t with pc := p } hpc, ← hstored, ← hp, Int.toNat_natCast]

/-- Settles O44: after reset the stack pointer is `STACK_TOP`, so one more is above it. -/
theorem emptyStackUnderflowsForEveryStackTop : Obligations.EmptyStackUnderflowsForEveryStackTop := by
  intro c r hr hne
  have hsp : popSp (State.resetIn c) ⟨r.toNat, hr⟩ = c.stackTop.toNat + 1 :=
    popSp_of_ne ((mk_eq_spIndex_iff hr).not.2 hne)
  constructor
  · exact congrArg State.fault (popIn_underflow hsp (by omega))
  · exact congrArg State.fault (retIn_underflow (s := State.resetIn c) (Int.lt_succ _))

end Sys2Proof.Machine
end

section
/-! Which instructions write and which depend on the flags and memory (10_state.md R26; 20_memory.md section 4). For the
dependence: from two states that differ there alone the tests answer alike, and the ends differ there alone. -/

namespace Sys2Proof.Machine

/-- The states differ in nothing but the flags and memory, not in the flags if `sameFl` and not in memory if `sameMem`. -/
def Agree (sameFl sameMem : Prop) (s t : State) : Prop :=
  ∃ f m, t = { s with fl := f, mem := m } ∧ (sameFl → f = s.fl) ∧ (sameMem → m = s.mem)

/-- Two ends of the tests of a cycle: the same raise, or two states that agree. -/
inductive AgreeEnd (sameFl sameMem : Prop) : Except Raise State → Except Raise State → Prop
  | ok {s t : State} (h : Agree sameFl sameMem s t) : AgreeEnd sameFl sameMem (.ok s) (.ok t)
  | error (e : Raise) : AgreeEnd sameFl sameMem (.error e) (.error e)

section Independence

variable {sameFl sameMem : Prop} {s t : State}

/-! ### States that agree -/

/-- States that agree and have the same memory differ in the flags alone. -/
theorem Agree.eq_of_sameMem (h : Agree sameFl True s t) : { t with fl := s.fl } = s := by
  obtain ⟨f, m, rfl, -, hm⟩ := h
  obtain rfl := hm trivial
  rfl

/-- States that agree and have the same flags differ in memory alone. -/
theorem Agree.eq_of_sameFl (h : Agree True sameMem s t) : { t with mem := s.mem } = s := by
  obtain ⟨f, m, rfl, hf, -⟩ := h
  obtain rfl := hf trivial
  rfl

theorem Agree.advance (h : Agree sameFl sameMem s t) (k : Nat) : Agree sameFl sameMem (s.advance k) (t.advance k) := by
  obtain ⟨f, m, rfl, hf, hm⟩ := h
  exact ⟨f, m, rfl, hf, hm⟩

theorem Agree.goto (h : Agree sameFl sameMem s t) (v : Byte) : Agree sameFl sameMem (s.goto v) (t.goto v) := by
  obtain ⟨f, m, rfl, hf, hm⟩ := h
  exact ⟨f, m, rfl, hf, hm⟩

/-! ### Ends that agree -/

theorem Agree.settle {x y : Except Raise State} (h : Agree sameFl sameMem s t) (o : Option Byte)
    (hend : AgreeEnd sameFl sameMem x y) : Agree sameFl sameMem (settle o s x) (settle o t y) := by
  cases hend with
  | ok hst => exact hst
  | error e =>
    obtain ⟨f, m, rfl, hf, hm⟩ := h
    exact ⟨f, m, rfl, hf, hm⟩

/-- A test or a read that answers alike in both states. -/
theorem AgreeEnd.bind_same {α : Type} {x y : Except Raise α} {f g : α → Except Raise State} (hxy : x = y)
    (h : ∀ a, AgreeEnd sameFl sameMem (f a) (g a)) : AgreeEnd sameFl sameMem (x >>= f) (y >>= g) := by
  subst hxy
  cases x with
  | ok a => exact h a
  | error e => exact .error e

/-- A write, and what follows it. -/
theorem AgreeEnd.bind {x y : Except Raise State} {f g : State → Except Raise State} (hxy : AgreeEnd sameFl sameMem x y)
    (h : ∀ a b, Agree sameFl sameMem a b → AgreeEnd sameFl sameMem (f a) (g b)) :
    AgreeEnd sameFl sameMem (x >>= f) (y >>= g) := by
  cases hxy with
  | ok hst => exact h _ _ hst
  | error e => exact .error e

/-! ### The shared operations -/

theorem regSet_agree (h : Agree sameFl sameMem s t) (r v : Byte) : AgreeEnd sameFl sameMem (regSet s r v) (regSet t r v) := by
  obtain ⟨f, m, rfl, hf, hm⟩ := h
  exact .bind_same rfl fun _ => .ok ⟨f, m, rfl, hf, hm⟩

theorem jumpToReg_agree (h : Agree sameFl sameMem s t) (r : Byte) :
    AgreeEnd sameFl sameMem (jumpToReg r s) (jumpToReg r t) := by
  obtain ⟨f, m, rfl, hf, hm⟩ := h
  exact .bind_same rfl fun _ => .ok ⟨f, m, rfl, hf, hm⟩

/-- COMPARE writes the same flags in both states. -/
theorem alu_agree (h : Agree sameFl sameMem s t) (kind : AluKind) (a b : Byte) :
    AgreeEnd sameFl sameMem (alu kind a b s) (alu kind a b t) := by
  obtain ⟨f, m, rfl, hf, hm⟩ := h
  refine .bind_same rfl fun p => .bind_same rfl fun q => ?_
  cases kind with
  | add => exact regSet_agree ⟨f, m, rfl, hf, hm⟩ a (aluSum p q)
  | multiply => exact regSet_agree ⟨f, m, rfl, hf, hm⟩ a (aluProduct p q)
  | compare => exact .ok ⟨compareFlag p q, m, rfl, fun _ => rfl, hm⟩

/-- A stack store writes the same byte in both memories. -/
theorem storeAtSp_agree (h : Agree sameFl sameMem s t) (n : Int) (v : Byte) :
    AgreeEnd sameFl sameMem (storeAtSp s n v) (storeAtSp t n v) := by
  obtain ⟨f, m, rfl, hf, hm⟩ := h
  rcases Nat.lt_or_ge n.toNat 256 with hn | hn
  · simp only [storeAtSp, memWrite_of_lt v hn, ok_bind]
    exact .ok ⟨f, m.poke n.toNat v, rfl, hf, fun hsame => congrArg (·.poke n.toNat v) (hm hsame)⟩
  · simp only [storeAtSp, memWrite_of_ge v hn, error_bind]
    exact .error _

theorem aluStepIn_agree (h : Agree sameFl sameMem s t) (c : Config) (m : Mnemonic) (kind : AluKind) (a b : Byte) :
    Agree sameFl sameMem (aluStepIn c m kind a b s) (aluStepIn c m kind a b t) :=
  h.settle _ (.bind (alu_agree h kind a b) fun _ _ hab => .ok (hab.advance 3))

theorem jumpWhenIn_agree (h : Agree sameFl sameMem s t) (c : Config) (m : Mnemonic) (taken : Bool) (r : Byte) :
    Agree sameFl sameMem (jumpWhenIn c m taken r s) (jumpWhenIn c m taken r t) := by
  refine h.settle _ ?_
  cases taken with
  | true => exact jumpToReg_agree h r
  | false => exact .ok (h.advance 2)

/-! ### The instructions -/

/-- From states that agree every instruction ends in states that agree, provided they have the same flags at a conditional jump
and the same byte at the stack pointer at a POP or RETURN. -/
theorem effectIn_agree (c : Config) (i : Instr) (h : Agree sameFl sameMem s t)
    (hflags : sameFl ∨ (∀ r, i ≠ .jumpIfEqual r) ∧ ∀ r, i ≠ .jumpIfNotEqual r)
    (hload : t.mem.peek s.sp.toNat = s.mem.peek s.sp.toNat ∨ (∀ r, i ≠ .pop r) ∧ i ≠ .ret) :
    Agree sameFl sameMem (effectIn c i s) (effectIn c i t) := by
  have hagree := h
  obtain ⟨f, m, rfl, hf, hm⟩ := h
  have hread (hpeek : m.peek s.sp.toNat = s.mem.peek s.sp.toNat) :
      memRead s s.sp.toNat = memRead { s with fl := f, mem := m } s.sp.toNat := by
    rw [memRead_byte, memRead_byte, hpeek]
  cases i with
  | halt => exact ⟨f, m, rfl, hf, hm⟩
  | loadImmediate r v => exact hagree.settle _ (.bind (regSet_agree hagree r v) fun _ _ hab => .ok (hab.advance 3))
  | printReg r => exact hagree.settle _ (.bind_same rfl fun _ => .ok ⟨f, m, rfl, hf, hm⟩)
  | compare a b => exact aluStepIn_agree hagree c .compare .compare a b
  | add a b => exact aluStepIn_agree hagree c .add .add a b
  | multiply a b => exact aluStepIn_agree hagree c .multiply .multiply a b
  | jump r => exact hagree.settle _ (jumpToReg_agree hagree r)
  | jumpIfEqual r =>
    obtain rfl := hf (hflags.resolve_right fun ⟨hne, _⟩ => hne r rfl)
    exact jumpWhenIn_agree hagree c .jumpIfEqual s.fl.isEqual r
  | jumpIfNotEqual r =>
    obtain rfl := hf (hflags.resolve_right fun ⟨_, hne⟩ => hne r rfl)
    exact jumpWhenIn_agree hagree c .jumpIfNotEqual (!s.fl.isEqual) r
  | push r =>
    exact hagree.settle _ (.bind_same rfl fun _ => .bind_same rfl fun v =>
      .bind (storeAtSp_agree hagree (spDown s) v) fun _ _ hab => .ok (hab.advance 2))
  | pop r =>
    have hsame := hread (hload.resolve_right fun ⟨hne, _⟩ => hne r rfl)
    exact hagree.settle _ (.bind_same hsame fun _ => .bind_same rfl fun _ => .bind_same rfl fun _ =>
      .ok ⟨f, m, rfl, hf, hm⟩)
  | call r =>
    exact hagree.settle _ (.bind_same rfl fun _ => .bind_same rfl fun ret => .bind_same rfl fun target =>
      .bind (storeAtSp_agree hagree (spDown s) ret) fun _ _ hab => .ok (hab.goto target))
  | ret =>
    have hsame := hread (hload.resolve_right fun ⟨_, hne⟩ => hne rfl)
    exact hagree.settle _ (.bind_same hsame fun _ => .bind_same rfl fun _ => .ok ⟨f, m, rfl, hf, hm⟩)

end Independence

/-- Settles O35: the flags among the writes of `Effect`, and two states with the same memory. -/
theorem flagsAreWrittenByCompareAndReadByJumps : Obligations.FlagsAreWrittenByCompareAndReadByJumps := by
  refine ⟨fun i s t hi hexec => (effect_of_exec hexec).fl_eq hi, fun i s t f hequal hnotEqual hexec => ?independent⟩
  case independent =>
    rw [exec_eq_next_effectIn, Host.Outcome.next.injEq] at hexec
    subst hexec
    have hagree : Agree False True s { s with fl := f } := ⟨f, s.mem, rfl, False.elim, fun _ => rfl⟩
    exact ⟨_, exec_eq_next_effectIn _ i, (effectIn_agree _ i hagree (.inr ⟨hequal, hnotEqual⟩) (.inl rfl)).eq_of_sameMem⟩

/-- Settles O37: memory among the writes of `Effect`, and two states with the same flags. -/
theorem onlyStackInstructionsReachMemory : Obligations.OnlyStackInstructionsReachMemory := by
  refine ⟨fun i s t hexec hpush hcall a _ => ?unwritten, fun i s t hexec => ?written, fun i s m hload => ?independent⟩
  case unwritten => rw [(effect_of_exec hexec).mem_eq hpush hcall]
  case written => exact (effect_of_exec hexec).keepsMemExcept
  case independent =>
    have hagree : Agree True False s { s with mem := m } := ⟨s.fl, m, rfl, fun _ => rfl, False.elim⟩
    exact ⟨_, _, exec_eq_next_effectIn s i, exec_eq_next_effectIn _ i,
      (effectIn_agree _ i hagree (.inl trivial) hload).eq_of_sameFl⟩

end Sys2Proof.Machine
end

section
/-! Reset, the loader's error and the run (10_state.md R34; 70_reset_and_hazards.md R260, R263, R267, R269). -/

namespace Sys2Proof.Machine

variable {c : Config} {s : State}

/-- Register 7 holds `STACK_TOP` after reset and the others 0 (R34). -/
theorem State.reg_resetIn (c : Config) (j : Fin numRegs) :
    (State.resetIn c).reg j = if j = spIndex then c.stackTop else 0 := by
  fin_cases j <;> rfl

/-- Settles O39: `hostReset` is the state after reset, whatever the state was. -/
theorem resetValues : Obligations.ResetValues := fun c _ =>
  ⟨State.reg_resetIn c, rfl, rfl, Memory.peek_nil, rfl, rfl, rfl, rfl, rfl⟩

/-- A load that reaches the end of memory with bytes left raises at 256, the first address outside it (R263). -/
theorem loadFrom_of_not_fits (s : State) {a : Nat} (bytes : List Byte) (ha : a ≤ 256) (hlong : 256 < a + bytes.length) :
    loadFrom s a bytes = .error ⟨.outOfBounds, 256⟩ := by
  induction bytes generalizing s a with
  | nil => exact absurd hlong (Nat.not_lt.2 ha)
  | cons b bytes ih =>
    rw [List.length_cons] at hlong
    rcases Nat.lt_or_ge a 256 with hin | hout
    · rw [loadFrom, memWrite_of_lt b hin, ok_bind]
      exact ih _ hin (by omega)
    · obtain rfl : a = 256 := by omega
      rw [loadFrom, memWrite_of_ge b hout, error_bind]
      rfl

/-- Settles O42: the load starts at address 0. -/
theorem tooLongImageIsTheLoadersError : Obligations.TooLongImageIsTheLoadersError := by
  intro s image hlong
  have hlong' : 256 < 0 + image.length := by omega
  exact loadFrom_of_not_fits s image (Nat.zero_le 256) hlong'

/-! ### The run (40_engine_cycle.md R118) -/

/-- The run of a stopped engine is that engine, whatever the fuel. -/
theorem runIn_of_stopped (hstop : s.engine ≠ .running) (fuel : Nat) : runIn c fuel s = some s := by
  cases fuel with
  | zero | succ fuel => rw [runIn, if_neg hstop]

theorem runIn_zero_of_running (hrun : s.engine = .running) : runIn c 0 s = none := by rw [runIn, if_pos hrun]

/-- The run of a Running engine is one cycle and the run from there. -/
theorem runIn_succ_of_running (hrun : s.engine = .running) (fuel : Nat) :
    runIn c (fuel + 1) s = runIn c fuel (stepIn c s) := by rw [runIn, if_pos hrun]

/-- Settles O43, by induction on the fuel: a stopped engine ends the run at once, a Running one after its next cycle. -/
theorem runEndsAtTheFirstStop : Obligations.RunEndsAtTheFirstStop := by
  intro c fuel
  induction fuel with
  | zero =>
    intro s t hanswer
    by_cases hrun : s.engine = .running
    · rw [runIn_zero_of_running hrun] at hanswer
      cases hanswer
    · rw [runIn_of_stopped hrun] at hanswer
      cases hanswer
      exact ⟨hrun, fun more => runIn_of_stopped hrun _, 0, le_rfl, rfl, nofun⟩
  | succ fuel ih =>
    intro s t hanswer
    by_cases hrun : s.engine = .running
    · rw [runIn_succ_of_running hrun] at hanswer
      obtain ⟨hstop, hmore, n, hn, hend, hbefore⟩ := ih _ _ hanswer
      refine ⟨hstop, fun more => ?_, n + 1, Nat.succ_le_succ hn, hend, fun k hk => ?_⟩
      · rw [Nat.succ_add, runIn_succ_of_running hrun, hmore]
      · cases k with
        | zero => exact hrun
        | succ k => exact hbefore k (Nat.lt_of_succ_lt_succ hk)
    · rw [runIn_of_stopped hrun] at hanswer
      cases hanswer
      exact ⟨hrun, fun more => runIn_of_stopped hrun _, 0, Nat.zero_le _, rfl, nofun⟩

end Sys2Proof.Machine
end
